-- ==== Sys2Proof/Word.lean ====
section
/-! DEFINITION. The bit-vector types of CORE: the widths the source fixes (00_scope.md R5, 10_state.md R22). -/

namespace Sys2Proof

/-- An 8-bit unsigned value: one lane of a byte string (00_scope.md R8). -/
abbrev Byte := BitVec 8

/-- A ULID value: a 128-bit unsigned integer (10_state.md R22). -/
abbrev Value := BitVec 128

/-- A 48-bit count of milliseconds since 1970-01-01T00:00:00Z (10_state.md R22, 42_timestamp_extractor.md R117). -/
abbrev Timestamp := BitVec 48

/-- The 80-bit random part of a ULID (10_state.md R22). -/
abbrev Random := BitVec 80

/-- A 5-bit digit of the canonical form (00_scope.md R12). -/
abbrev Sym := BitVec 5

end Sys2Proof
end

