-- ==== Sys2Proof/Machine/Operands.lean ====
section
/-! DEFINITION. The views of a value, radix-32 digits, and the symbol lookups the two canonical operations share
(10_state.md R22, R23; 00_scope.md R12; 40_base32_codec.md R70 to R77). -/

namespace Sys2Proof.Machine

/-- `ts = v[127:80]` (10_state.md R22). -/
def timestampOf (v : Value) : Timestamp := v.extractLsb' 80 48

/-- `rnd = v[79:0]` (10_state.md R22). -/
def randomOf (v : Value) : Random := v.extractLsb' 0 80

/-- `v = ts ++ rnd` (10_state.md R23). -/
def valueOf (ts : Timestamp) (rnd : Random) : Value := ts ++ rnd

/-- `radix32(d) = sum of d[i] * 32^(n-1-i)`: digit 0 is the most significant (00_scope.md R12). -/
def radix32 : List Sym → Nat
  | [] => 0
  | d :: ds => d.toNat * 32 ^ ds.length + radix32 ds

/-- `digits32_n(x)`: element `i` is `(x >> (5*(n-1-i)))[4:0]` (00_scope.md R12). -/
def digits32 (n x : Nat) : List Sym :=
  (List.range n).map fun i => BitVec.ofNat 5 (x >>> (5 * (n - 1 - i)))

/-- The bytes of `0123456789ABCDEFGHJKMNPQRSTVWXYZ`, in order (40_base32_codec.md R70, R71). -/
def alphabet : List Byte :=
  [0x30#8, 0x31#8, 0x32#8, 0x33#8, 0x34#8, 0x35#8, 0x36#8, 0x37#8] ++
  [0x38#8, 0x39#8, 0x41#8, 0x42#8, 0x43#8, 0x44#8, 0x45#8, 0x46#8] ++
  [0x47#8, 0x48#8, 0x4A#8, 0x4B#8, 0x4D#8, 0x4E#8, 0x50#8, 0x51#8] ++
  [0x52#8, 0x53#8, 0x54#8, 0x56#8, 0x57#8, 0x58#8, 0x59#8, 0x5A#8]

/-- `ENC_SYM`, the encoder's 5-bit lookup (40_base32_codec.md R71). The table has an entry for every symbol, so the
default is never read. -/
def encSym (x : Sym) : Byte := alphabet.getD x.toNat 0#8

/-- `UPPER`: ASCII `a`..`z` to `A`..`Z` only (40_base32_codec.md R72, R74). -/
def upper (b : Byte) : Byte := if 0x61#8 ≤ b ∧ b ≤ 0x7A#8 then b - 0x20#8 else b

/-- `DEC_SYM`, the decoder's reverse lookup: the symbol whose character is the uppercased byte, if there is one
(40_base32_codec.md R72). -/
def decSym (b : Byte) : Option Sym := (alphabet.findIdx? (· == upper b)).map (BitVec.ofNat 5)

/-- `NORM`: the symbols of the bytes that `DEC_SYM` knows, in order (40_base32_codec.md R77). -/
def normSyms (s : List Byte) : List Sym := s.filterMap decSym

/-- The number whose big-endian bytes are `b`: `b[0] ++ b[1] ++ ...` (00_scope.md R7, 20_memory.md R40). -/
def bigEndian : List Byte → Nat
  | [] => 0
  | b :: bs => b.toNat * 256 ^ bs.length + bigEndian bs

end Sys2Proof.Machine
end

