-- ==== Sys2Proof/Config.lean ====
section
/-! DEFINITION. What an implementation of CORE fixes and the spec leaves OPEN (00_scope.md R5). Each open
parameter is an opaque constant: nothing in Lean can evaluate it, so a claim holds for every admissible value. -/

namespace Sys2Proof

/-- How many byte lanes the input port has beyond the least number allowed, 27 (00_scope.md R5). -/
opaque Config.spareLanes : Nat

/-- How many bits `in_len` has beyond the least number that can count the lanes (00_scope.md R5). -/
opaque Config.spareLenBits : Nat

/-- How many outstanding commands an instance holds beyond the least number allowed, 1 (00_scope.md R5). -/
opaque Config.spareOutstanding : Nat

/-- How many CORE instances the platform holds beyond the least number allowed, 1 (00_scope.md R5). -/
opaque Config.spareInstances : Nat

/-- `MAX_IN_LEN`: byte lanes of `in_bytes`. OPEN, at least 27 (00_scope.md R5, 92_eei_decisions.md D10). -/
def Config.maxInLen : Nat := Config.spareLanes + 27

/-- `LEN_W`: width of `in_len` in bits. OPEN, with `2^LEN_W - 1 >= MAX_IN_LEN` (00_scope.md R5): every admissible
width is the least one, `log2 MAX_IN_LEN + 1`, plus some number of bits. -/
def Config.lenW : Nat := Nat.log2 Config.maxInLen + 1 + Config.spareLenBits

/-- `MAX_OUTSTANDING`: most commands accepted whose response is not yet taken. OPEN, at least 1
(00_scope.md R5, 70_reset_and_hazards.md R151). -/
def Config.maxOutstanding : Nat := Config.spareOutstanding + 1

/-- `N_INSTANCES`: independent CORE instances on the platform. OPEN, at least 1 (00_scope.md R5, 60_exceptions.md R138). -/
def Config.nInstances : Nat := Config.spareInstances + 1

end Sys2Proof
end

