-- ==== Sys2Proof/Syntax.lean ====
section
/-! DEFINITION. The operations (one constructor for each row of spec/opcode_table.json), the raw command as the host
presents it, and the written forms of a command. -/

namespace Sys2Proof

/-- An operation with the operand it reads (30_encoding.md R56, R60; 10_state.md R28): the "tagged union" of
30_encoding.md. The value operand is `in_val`; the string operand is `[in_bytes[0], ..., in_bytes[in_len - 1]]`. -/
inductive Instr where
  /-- `ENC32`: value to canonical string (40_base32_codec.md R80). -/
  | enc32 (v : Value)
  /-- `DEC32`: canonical string to value (40_base32_codec.md R86). -/
  | dec32 (s : List Byte)
  /-- `PACK128`: value to binary form (41_binary_codec.md R102). -/
  | pack128 (v : Value)
  /-- `UNPACK128`: binary form to value (41_binary_codec.md R106). -/
  | unpack128 (b : List Byte)
  /-- `TSX`: upper 48 bits of a value (42_timestamp_extractor.md R116). -/
  | tsx (v : Value)
deriving DecidableEq, Repr

/-- A command: exactly the fields of 10_state.md R25, as they stand at acceptance. The widths that depend on open
parameters (`inLen` in LEN_W bits, `inBytes` in MAX_IN_LEN lanes) are checked by `Command.WellFormed`. -/
structure Command where
  /-- the command byte: `RSV = cmd[7:3]`, `OPC = cmd[2:0]` (30_encoding.md R55) -/
  cmd : Byte
  /-- a ULID value operand -/
  inVal : Value
  /-- the count of significant byte lanes -/
  inLen : Nat
  /-- the byte lanes, lane 0 first -/
  inBytes : List Byte
deriving DecidableEq, Repr

/-- The written forms of a command (30_encoding.md R63). -/
inductive Form where
  /-- `ENC32 v=0xHHHH...`: the hexadecimal digits, most significant first -/
  | enc32 (hex : List (BitVec 4))
  /-- `PACK128 v=0xHHHH...` -/
  | pack128 (hex : List (BitVec 4))
  /-- `TSX v=0xHHHH...` -/
  | tsx (hex : List (BitVec 4))
  /-- `DEC32 "text"` -/
  | dec32Text (text : String)
  /-- `DEC32 bytes=[b0 b1 ...]` -/
  | dec32Bytes (bs : List Byte)
  /-- `UNPACK128 bytes=[b0 b1 ...]` -/
  | unpack128Bytes (bs : List Byte)
  /-- `CMD 0xNN ...`: a raw command byte with whatever operand fields follow -/
  | raw (c : Command)
deriving DecidableEq, Repr

end Sys2Proof
end

