-- ==== Sys2Proof/WellFormed.lean ====
section
/-! DEFINITION. What fits the ports: the width checks on commands, operations and written forms. -/

namespace Sys2Proof

/-- The command's fields have the widths of 10_state.md R25: `in_len` fits LEN_W bits and `in_bytes` has MAX_IN_LEN
lanes. (`in_len` may exceed MAX_IN_LEN: such a command can be presented, and is illegal, 60_exceptions.md R127.) -/
abbrev Command.WellFormed (c : Command) : Prop :=
  c.inLen < 2 ^ Config.lenW ∧ c.inBytes.length = Config.maxInLen

/-- The operation can be presented as a legal command: its string operand fits the lanes (10_state.md R27). Every value
operand fits (10_state.md R26). -/
abbrev Instr.WellFormed : Instr → Prop
  | .enc32 _ => True
  | .dec32 s => s.length ≤ Config.maxInLen
  | .pack128 _ => True
  | .unpack128 b => b.length ≤ Config.maxInLen
  | .tsx _ => True

/-- The written form can be presented: at most 32 hexadecimal digits for a value, a string that fits the lanes, a raw
command whose fields have their widths (30_encoding.md R63). -/
abbrev Form.WellFormed : Form → Prop
  | .enc32 hex => hex.length ≤ 32
  | .pack128 hex => hex.length ≤ 32
  | .tsx hex => hex.length ≤ 32
  | .dec32Text text => text.toList.length ≤ Config.maxInLen ∧ ∀ ch ∈ text.toList, ch.toNat < 128
  | .dec32Bytes bs => bs.length ≤ Config.maxInLen
  | .unpack128Bytes bs => bs.length ≤ Config.maxInLen
  | .raw c => c.WellFormed

end Sys2Proof
end

