-- ==== Sys2Proof/Decode.lean ====
section
/-! DEFINITION. The decoder, total on any command and rejecting by name (30_encoding.md R55 to R60), and after it the
encoder, written from the same tables; then the written forms' assembly (30_encoding.md R63). -/

namespace Sys2Proof

/-- Why a command is illegal. All three give status ILLEGAL_COMMAND (60_exceptions.md R126, R127). -/
inductive Illegal where
  /-- `in_len > MAX_IN_LEN` (R127 (b)) -/
  | lengthOverCapacity
  /-- `cmd[7:3]` is not zero (30_encoding.md R57) -/
  | reservedBits
  /-- `cmd[2:0]` is 0, 6 or 7 (30_encoding.md R57) -/
  | unassignedCode
deriving DecidableEq, Repr

/-- `RSV = cmd[7:3]` (30_encoding.md R55). -/
def reservedField (cmd : Byte) : BitVec 5 := cmd.extractLsb' 3 5

/-- `OPC = cmd[2:0]` (30_encoding.md R55). -/
def opcodeField (cmd : Byte) : BitVec 3 := cmd.extractLsb' 0 3

/-- The string operand `[in_bytes[0], ..., in_bytes[in_len - 1]]` (10_state.md R27, 30_encoding.md R60). -/
def Command.operandString (c : Command) : List Byte := c.inBytes.take c.inLen

/-- The command check and operand assembly: `in_len` first, then the whole command byte (60_exceptions.md R126,
30_encoding.md R57, R60). -/
def decode (c : Command) : Except Illegal Instr :=
  if Config.maxInLen < c.inLen then .error .lengthOverCapacity
  else if reservedField c.cmd ≠ 0#5 then .error .reservedBits
  else match (opcodeField c.cmd).toNat with
    | 1 => .ok (.enc32 c.inVal)
    | 2 => .ok (.dec32 c.operandString)
    | 3 => .ok (.pack128 c.inVal)
    | 4 => .ok (.unpack128 c.operandString)
    | 5 => .ok (.tsx c.inVal)
    | _ => .error .unassignedCode

/-- The command byte of an operation (30_encoding.md R56). -/
def commandByte : Instr → Byte
  | .enc32 _ => 0x01#8
  | .dec32 _ => 0x02#8
  | .pack128 _ => 0x03#8
  | .unpack128 _ => 0x04#8
  | .tsx _ => 0x05#8

/-- The lanes that carry a byte string: lane `i` holds byte `i` (20_memory.md R42). Lanes beyond it are no part of the
operand (10_state.md R27); the encoder drives them 0. DESIGN CHOICE, safe: log entry 10. -/
def inputLanes (s : List Byte) : List Byte := s ++ List.replicate (Config.maxInLen - s.length) 0#8

/-- A command that carries a value operand. The fields its operation ignores (10_state.md R28) are driven 0: log entry 10. -/
def valueCommand (cmd : Byte) (v : Value) : Command := ⟨cmd, v, 0, inputLanes []⟩

/-- A command that carries a string operand. The field its operation ignores (10_state.md R28) is driven 0: log entry 10. -/
def stringCommand (cmd : Byte) (s : List Byte) : Command := ⟨cmd, 0#128, s.length, inputLanes s⟩

/-- The command that presents an operation (30_encoding.md R56, R60, R63). -/
def encode (i : Instr) : Command :=
  match i with
  | .enc32 v => valueCommand (commandByte i) v
  | .dec32 s => stringCommand (commandByte i) s
  | .pack128 v => valueCommand (commandByte i) v
  | .unpack128 b => stringCommand (commandByte i) b
  | .tsx v => valueCommand (commandByte i) v

/-- The value written `0xHHHH...`: at most 32 digits, zero-extended to 128 bits (30_encoding.md R63). -/
def hexValue (hex : List (BitVec 4)) : Value := hex.foldl (fun v d => (v <<< 4) ||| d.zeroExtend 128) 0#128

/-- The bytes of a text in ASCII, one for each character (30_encoding.md R63, 92_eei_decisions.md D8). -/
def asciiBytes (text : String) : List Byte := text.toList.map fun ch => BitVec.ofNat 8 ch.toNat

/-- The command a written form stands for (30_encoding.md R63). -/
def assemble : Form → Command
  | .enc32 hex => encode (.enc32 (hexValue hex))
  | .pack128 hex => encode (.pack128 (hexValue hex))
  | .tsx hex => encode (.tsx (hexValue hex))
  | .dec32Text text => encode (.dec32 (asciiBytes text))
  | .dec32Bytes bs => encode (.dec32 bs)
  | .unpack128Bytes bs => encode (.unpack128 bs)
  | .raw c => c

/-- The command whose command byte is `w` and whose operand fields are all zero: a word of spec/opcode_table.json
gives the operand fields no bits. -/
def commandOfWord (w : Nat) : Command := ⟨BitVec.ofNat 8 w, 0#128, 0, inputLanes []⟩

/-- What the decoder reads from a table word: every row has exactly 8 bits (30_encoding.md R59), so a word of another
length is no command. -/
def decodeTableWord (nbits w : Nat) : Option Instr :=
  if nbits = 8 ∧ w < 2 ^ 8 then (decode (commandOfWord w)).toOption else none

end Sys2Proof
end

