-- ==== Sys2Proof/Machine/State.lean ====
section
/-! DEFINITION. The state: the CORE instances with their host channels, and the agents' moves still to come; the reset
state; why a step can stop. -/

namespace Sys2Proof.Machine

/-- The status codes CORE produces (10_state.md R31). There is no constructor for the error kinds of the parts left out
(60_exceptions.md R133) nor for the codes 4 to 7. -/
inductive Status where
  /-- 0: the operation completed and its payload is defined -/
  | ok
  /-- 1: normalized string length not 26 (DEC32), or byte length not 16 (UNPACK128) -/
  | invalidLength
  /-- 2: the decoded timestamp is not below 2^48 (DEC32) -/
  | invalidTimestamp
  /-- 3: the command byte is unassigned, or `in_len > MAX_IN_LEN` -/
  | illegalCommand
deriving DecidableEq, Repr

/-- A response: exactly the fields of 10_state.md R30. A field, or a lane of `out_bytes`, that the rules do not define has
no value: `none` (R33). -/
structure Response where
  /-- the outcome code, 3 bits -/
  status : BitVec 3
  /-- a ULID value result -/
  outVal : Option Value
  /-- a timestamp result -/
  outTs : Option Timestamp
  /-- the count of significant byte lanes in `out_bytes` -/
  outLen : Option (BitVec 5)
  /-- the 26 byte lanes, lane 0 first -/
  outBytes : List (Option Byte)
deriving DecidableEq, Repr

/-- A result field of a response, as the host names it when it reads one (10_state.md R30, R33). -/
inductive Field where
  /-- `out_val` -/
  | outVal
  /-- `out_ts` -/
  | outTs
  /-- `out_len` -/
  | outLen
  /-- lane `i` of `out_bytes` -/
  | outByte (i : Nat)
deriving DecidableEq, Repr

/-- One CORE instance and its host channel, with the host's record of it. -/
structure Codec where
  /-- the reset input is asserted (70_reset_and_hazards.md R145) -/
  inReset : Bool
  /-- commands accepted and not yet answered, oldest first (10_state.md R36) -/
  queue : List Command
  /-- the response presented and not yet taken (70_reset_and_hazards.md R150) -/
  response : Option Response
  /-- the responses the host has taken, oldest first (70_reset_and_hazards.md R150, R155) -/
  taken : List Response
  /-- the commands the host has presented that are not accepted yet (70_reset_and_hazards.md R153 (a), R155): the host's
  record, log entry 18 -/
  unaccepted : List Command
  /-- how many accepted commands a reset has dropped before their response was taken (70_reset_and_hazards.md R146, R155): the
  host's record, log entry 18 -/
  dropped : Nat
deriving DecidableEq, Repr

/-- One move of an agent at one CORE instance. The schedule of moves says which agent moves next; every interleaving of
the host and the instances is one schedule (log entry 1). -/
inductive Move where
  /-- the host drives `cmd_valid` with these command fields (70_reset_and_hazards.md R149) -/
  | offer (c : Command)
  /-- the instance turns its oldest accepted command into a response (10_state.md R34) -/
  | answer
  /-- the host drives `rsp_ready` (70_reset_and_hazards.md R150) -/
  | take
  /-- the reset input goes active (70_reset_and_hazards.md R145) -/
  | assertReset
  /-- the reset input goes inactive (70_reset_and_hazards.md R145) -/
  | releaseReset
  /-- the host reads a result field of the last response it took (10_state.md R33) -/
  | read (f : Field)
  /-- the host passes `out_val` of the last response it took into `in_val` of the next command (10_state.md R20,
  30_encoding.md R64) -/
  | forward (cmd : Byte)
  /-- the host tests the `status` of the last response it took and leaves out its next `skip` moves at this instance
  unless it is OK (30_encoding.md R61, R64) -/
  | branchOk (skip : Nat)
deriving DecidableEq, Repr

/-- The whole machine. -/
structure State where
  /-- the N_INSTANCES instances (60_exceptions.md R138) -/
  codecs : List Codec
  /-- the number of the instance whose command is being answered (the model's own field, log entry 1) -/
  turn : Nat
  /-- the moves still to come, each with the number of its instance (the model's own field, log entry 1) -/
  schedule : List (Nat × Move)
deriving DecidableEq, Repr

/-- Why the model stops. CORE itself never does (60_exceptions.md R134): each of these is the host's. -/
inductive Fault where
  /-- A move names an instance the platform does not have (60_exceptions.md R138). Raised by `act`. Safe: the model stops
  where there is no hardware to go on. -/
  | noSuchInstance
  /-- The host reads a response field that has no value (10_state.md R33), or one of no response at all (R39). Raised by
  `readField`, `forward` and `branchOk`. Safe: the spec says such a read faults. -/
  | undefinedField
  /-- The host receives a status code 4 to 7 (93_implementation_defined.md). Raised by `branchOk`. Safe: the spec says a
  model that receives one faults, and CORE never produces one (10_state.md R31). -/
  | undefinedStatus
deriving DecidableEq, Repr

/-- Why the model would refuse an instruction. -/
inductive Refusal where
  /-- An instruction that has no meaning yet. Raised by no arm of `exec`: every operation has its meaning. Safe. -/
  | notModelled (mnemonic : String)
deriving DecidableEq, Repr

/-- An instance right after reset: empty queue, no response (70_reset_and_hazards.md R146, R147). The reset input is
released, and the host has taken nothing, presented nothing and lost nothing: log entries 7, 8 and 18. -/
def Codec.atReset : Codec :=
  { inReset := false, queue := [], response := none, taken := [], unaccepted := [], dropped := 0 }

/-- The machine right after reset (70_reset_and_hazards.md R147): every instance in its reset state. No move is scheduled
and `turn` is 0: the model's own fields, DESIGN CHOICE, log entry 1. -/
def State.reset : State :=
  { codecs := List.replicate Config.nInstances Codec.atReset, turn := 0, schedule := [] }

end Sys2Proof.Machine
end

