-- ==== Sys2Proof/Machine/Flags.lean ====
section
/-! DEFINITION. CORE has no flags but the `status` field of each response (10_state.md R38): its codes, both ways. -/

namespace Sys2Proof.Machine

/-- The 3-bit code of a status (10_state.md R31). -/
def Status.code : Status → BitVec 3
  | .ok => 0#3
  | .invalidLength => 1#3
  | .invalidTimestamp => 2#3
  | .illegalCommand => 3#3

/-- What a host makes of a status code: the codes 4 to 7 mean nothing (10_state.md R31). -/
def Status.ofCode (b : BitVec 3) : Option Status :=
  match b.toNat with
  | 0 => some .ok
  | 1 => some .invalidLength
  | 2 => some .invalidTimestamp
  | 3 => some .illegalCommand
  | _ => none

/-- The name of a status (10_state.md R31). -/
def Status.name : Status → String
  | .ok => "OK"
  | .invalidLength => "INVALID_LENGTH"
  | .invalidTimestamp => "INVALID_TIMESTAMP"
  | .illegalCommand => "ILLEGAL_COMMAND"

end Sys2Proof.Machine
end

