-- ==== Sys2Proof/Machine/Ops.lean ====
section
/-! DEFINITION. The shared operations: building a response (`respond`, and `raise`, CORE's one way to report an error),
the handshake of an instance, and the host's reading of a response. -/

namespace Sys2Proof.Machine

/-- The 26 lanes of `out_bytes` that carry a byte-string result: lane `i` holds byte `i`, the others have no value
(10_state.md R32, R33; 20_memory.md R42). -/
def outputLanes (bs : List Byte) : List (Option Byte) := bs.map some ++ List.replicate (26 - bs.length) none

/-- `raise E`: status `E` and no payload (00_scope.md R10). CORE has no trap: this response is all an error does
(60_exceptions.md R132, R134). -/
def raise (e : Status) : Response :=
  { status := e.code, outVal := none, outTs := none, outLen := none, outBytes := outputLanes [] }

/-- `respond(OK, out_val)` (10_state.md R32). -/
def okValue (v : Value) : Response := { raise .ok with outVal := some v }

/-- `respond(OK, out_ts)` (10_state.md R32). -/
def okTimestamp (ts : Timestamp) : Response := { raise .ok with outTs := some ts }

/-- `respond(OK, out_len and out_bytes[0..out_len-1])` (10_state.md R32). -/
def okBytes (bs : List Byte) : Response :=
  { raise .ok with outLen := some (BitVec.ofNat 5 bs.length), outBytes := outputLanes bs }

/-- The byte string a response carries: the lanes of `out_bytes` that have a value, lane 0 first (20_memory.md R42). -/
def Response.bytes (r : Response) : List Byte := r.outBytes.filterMap id

/-- Instance `k` becomes `u`; the instances share nothing (60_exceptions.md R138). -/
def State.setCodec (s : State) (k : Nat) (u : Codec) : State := { s with codecs := s.codecs.set k u }

/-- The instance whose turn it is presents `r` on its response channel (70_reset_and_hazards.md R150). -/
def State.respond (s : State) (r : Response) : State :=
  { s with codecs := s.codecs.modify s.turn fun u => { u with response := some r } }

/-- Accepted commands that have no taken response (70_reset_and_hazards.md R151). -/
def Codec.occupancy (u : Codec) : Nat := u.queue.length + u.response.toList.length

/-- `cmd_ready`: false in reset and while the instance holds MAX_OUTSTANDING commands (70_reset_and_hazards.md R145, R151).
That it is true at every other time is the model's choice: DESIGN CHOICE, log entry 17. What counts as held: log entry 15. -/
def Codec.cmdReady (u : Codec) : Bool := !u.inReset && decide (u.occupancy < Config.maxOutstanding)

/-- The instance can answer: it is not in reset, an accepted command waits, and the response channel is free
(70_reset_and_hazards.md R145, R150; log entry 6). -/
def Codec.canAnswer (u : Codec) : Bool := !u.inReset && u.response.isNone && !u.queue.isEmpty

/-- `cmd_valid` with the fields `c`: accepted when `cmd_ready`, with every field as it stands; otherwise nothing
happens in CORE (70_reset_and_hazards.md R149, R145; log entry 9), and the command is still the host's to have accepted
(R153 (a), R155; log entry 18). -/
def Codec.offer (u : Codec) (c : Command) : Codec :=
  if u.cmdReady then { u with queue := u.queue ++ [c], unaccepted := u.unaccepted.erase c }
  else { u with unaccepted := u.unaccepted.insert c }

/-- `rsp_ready`: a response that is presented is taken by the host; in reset none is delivered
(70_reset_and_hazards.md R150, R145). -/
def Codec.take (u : Codec) : Codec :=
  match u.inReset, u.response with
  | false, some r => { u with response := none, taken := u.taken ++ [r] }
  | _, _ => u

/-- Reset is asserted: accepted commands and a waiting response are dropped (70_reset_and_hazards.md R145, R146; log entry 7).
What the host has taken, and what it has yet to present again (R145), stays with the host, and it records how many of its
commands are lost (log entry 18). -/
def Codec.assertReset (u : Codec) : Codec :=
  { u with inReset := true, queue := [], response := none, dropped := u.dropped + u.occupancy }

/-- Reset is released (70_reset_and_hazards.md R145). -/
def Codec.releaseReset (u : Codec) : Codec := { u with inReset := false }

/-- The response the host reads: the last one it took (30_encoding.md R64). -/
def Codec.lastTaken (u : Codec) : Option Response := u.taken.getLast?

/-- The field of a response has a value (10_state.md R33). -/
def Response.defines (r : Response) : Field → Bool
  | .outVal => r.outVal.isSome
  | .outTs => r.outTs.isSome
  | .outLen => r.outLen.isSome
  | .outByte i => (r.outBytes.getD i none).isSome

/-- The host reads a field of the last response it took: a read of a field with no value faults, and a read changes
nothing (10_state.md R33, R39; 20_memory.md R46). -/
def State.readField (s : State) (u : Codec) (f : Field) : Host.Outcome State Fault Refusal :=
  match u.lastTaken with
  | none => .fault .undefinedField
  | some r => if r.defines f then .next s else .fault .undefinedField

/-- The host presents a command whose `in_val` is the `out_val` of the last response it took (10_state.md R20,
30_encoding.md R64). The fields a value operation ignores are driven 0: log entry 10. -/
def State.forward (s : State) (k : Nat) (u : Codec) (cmd : Byte) : Host.Outcome State Fault Refusal :=
  match u.lastTaken.bind Response.outVal with
  | none => .fault .undefinedField
  | some v => .next (s.setCodec k (u.offer (valueCommand cmd v)))

/-- The command that a move presents at this instance: the fields it drives with `cmd_valid` (70_reset_and_hazards.md R149). A
forward with no `out_val` to pass on presents none. -/
def Codec.presents (u : Codec) : Move → Option Command
  | .offer c => some c
  | .forward cmd => (u.lastTaken.bind Response.outVal).map (valueCommand cmd)
  | .answer | .take | .assertReset | .releaseReset | .read _ | .branchOk _ => none

/-- The schedule without the next `n` moves at instance `k`. -/
def skipMoves (k : Nat) : Nat → List (Nat × Move) → List (Nat × Move)
  | _, [] => []
  | 0, ms => ms
  | n + 1, m :: ms => if m.1 = k then skipMoves k n ms else m :: skipMoves k (n + 1) ms

/-- The host tests the status of the last response it took and, unless it is OK, leaves out its next `skip` moves at this
instance (30_encoding.md R61, R64). A status code 4 to 7 faults (93_implementation_defined.md). -/
def State.branchOk (s : State) (k : Nat) (u : Codec) (skip : Nat) : Host.Outcome State Fault Refusal :=
  match u.lastTaken with
  | none => .fault .undefinedField
  | some r =>
    match Status.ofCode r.status with
    | none => .fault .undefinedStatus
    | some .ok => .next s
    | some _ => .next { s with schedule := skipMoves k skip s.schedule }

/-- The lowest-numbered instance that can answer. -/
def State.firstReady (s : State) : Option Nat := s.codecs.findIdx? Codec.canAnswer

/-- Instance `k` takes the oldest of its accepted commands, `queue` being the rest, and it is its turn (10_state.md R34,
70_reset_and_hazards.md R150). -/
def State.fetch (s : State) (k : Nat) (u : Codec) (queue : List Command) : State :=
  { s.setCodec k { u with queue := queue } with turn := k }

/-- The instance `u` with `c` as its next command to answer: oldest in the queue, reset released, the response channel free. -/
def Codec.placeCommand (u : Codec) (c : Command) : Codec :=
  { u with inReset := false, queue := c :: u.queue.tail, response := none }

end Sys2Proof.Machine
end

