-- ==== Sys2Proof/Machine/Base32.lean ====
section
/-! DEFINITION. The canonical codec: ENC32 (unit base32_encoder) and DEC32 (unit base32_decoder), 40_base32_codec.md. -/

namespace Sys2Proof.Machine

/-- The response of ENC32 (40_base32_codec.md R80). -/
def enc32Response (v : Value) : Response :=
  let dt := digits32 10 (timestampOf v).toNat
  let dr := digits32 16 (randomOf v).toNat
  okBytes (dt.map encSym ++ dr.map encSym)

/-- The response of DEC32 (40_base32_codec.md R86): the length check first (R88), then the timestamp range check (R89). -/
def dec32Response (s : List Byte) : Response :=
  let syms := normSyms s
  if syms.length ≠ 26 then raise .invalidLength
  else
    let ts50 := radix32 (syms.take 10)
    let rnd := radix32 (syms.drop 10)
    if 2 ^ 48 ≤ ts50 then raise .invalidTimestamp
    else okValue (valueOf (BitVec.ofNat 48 ts50) (BitVec.ofNat 80 rnd))

/-- `ENC32` (40_base32_codec.md R80). -/
def execEnc32 (v : Value) (s : State) : Host.Outcome State Fault Refusal :=
  .next (s.respond (enc32Response v))

/-- `DEC32` (40_base32_codec.md R86). -/
def execDec32 (str : List Byte) (s : State) : Host.Outcome State Fault Refusal :=
  .next (s.respond (dec32Response str))

end Sys2Proof.Machine
end

