-- ==== Sys2Proof/Machine/Binary.lean ====
section
/-! DEFINITION. The binary codec: PACK128 (unit binary_pack_128) and UNPACK128 (unit binary_unpack_128), 41_binary_codec.md. -/

namespace Sys2Proof.Machine

/-- The binary form of a value: byte `k` is `v[127 - 8k : 120 - 8k]` (20_memory.md R40, 41_binary_codec.md R102). -/
def binaryForm (v : Value) : List Byte := (List.range 16).map fun k => v.extractLsb' (120 - 8 * k) 8

/-- The response of PACK128 (41_binary_codec.md R102). -/
def pack128Response (v : Value) : Response := okBytes (binaryForm v)

/-- The response of UNPACK128 (41_binary_codec.md R106): the length check (R107), then the five big-endian fields of R101. -/
def unpack128Response (b : List Byte) : Response :=
  if b.length ≠ 16 then raise .invalidLength
  else
    let field1 := bigEndian (b.take 4)
    let field2 := bigEndian ((b.drop 4).take 2)
    let field3 := bigEndian ((b.drop 6).take 2)
    let field4 := bigEndian ((b.drop 8).take 4)
    let field5 := bigEndian ((b.drop 12).take 4)
    let ts := (field1 <<< 16) ||| field2
    let rnd := (field3 <<< 64) ||| (field4 <<< 32) ||| field5
    okValue (valueOf (BitVec.ofNat 48 ts) (BitVec.ofNat 80 rnd))

/-- `PACK128` (41_binary_codec.md R102). -/
def execPack128 (v : Value) (s : State) : Host.Outcome State Fault Refusal :=
  .next (s.respond (pack128Response v))

/-- `UNPACK128` (41_binary_codec.md R106). -/
def execUnpack128 (b : List Byte) (s : State) : Host.Outcome State Fault Refusal :=
  .next (s.respond (unpack128Response b))

end Sys2Proof.Machine
end

