-- ==== Sys2Proof/Machine/Timestamp.lean ====
section
/-! DEFINITION. The timestamp extractor: TSX (unit timestamp_extractor), 42_timestamp_extractor.md. -/

namespace Sys2Proof.Machine

/-- The response of TSX: the upper 48 bits (42_timestamp_extractor.md R116). -/
def tsxResponse (v : Value) : Response := okTimestamp (timestampOf v)

/-- `TSX` (42_timestamp_extractor.md R116). -/
def execTsx (v : Value) (s : State) : Host.Outcome State Fault Refusal :=
  .next (s.respond (tsxResponse v))

end Sys2Proof.Machine
end

