-- ==== Sys2Proof/Machine/Dispatch.lean ====
section
/-! DEFINITION. One arm for each operation (60_exceptions.md R126). -/

namespace Sys2Proof.Machine

def exec (i : Instr) (s : State) : Host.Outcome State Fault Refusal :=
  match i with
  | .enc32 v => Sys2Proof.Machine.execEnc32 v s
  | .dec32 str => Sys2Proof.Machine.execDec32 str s
  | .pack128 v => Sys2Proof.Machine.execPack128 v s
  | .unpack128 b => Sys2Proof.Machine.execUnpack128 b s
  | .tsx v => Sys2Proof.Machine.execTsx v s

end Sys2Proof.Machine
end

