-- ==== Sys2Proof/Machine/Moves.lean ====
section
/-! DEFINITION. What one move does: the instance's own step (10_state.md R34, 60_exceptions.md R126), the handshake and
the host's moves (70_reset_and_hazards.md R145 to R153); and the response of a command as a pure function. -/

namespace Sys2Proof.Machine

/-- The response of an operation on its operand. -/
def responseOf : Instr → Response
  | .enc32 v => enc32Response v
  | .dec32 s => dec32Response s
  | .pack128 v => pack128Response v
  | .unpack128 b => unpack128Response b
  | .tsx v => tsxResponse v

/-- `exec(c)` of 10_state.md R34 and 60_exceptions.md R126: the response of a command, a function of its fields alone. -/
def commandResponse (c : Command) : Response :=
  match decode c with
  | .error _ => raise .illegalCommand
  | .ok i => responseOf i

/-- Run the command `c` at the instance whose turn it is: an illegal one raises ILLEGAL_COMMAND (60_exceptions.md R126,
R127), a legal one runs its operation. -/
def runCommand (c : Command) (s : State) : Host.Outcome State Fault Refusal :=
  match decode c with
  | .error _ => .next (s.respond (raise .illegalCommand))
  | .ok i => exec i s

/-- Instance `k` answers its oldest accepted command, if it can (10_state.md R34, 70_reset_and_hazards.md R150). -/
def answer (k : Nat) (u : Codec) (s : State) : Host.Outcome State Fault Refusal :=
  match u.canAnswer, u.queue with
  | true, c :: queue => runCommand c (s.fetch k u queue)
  | _, _ => .next s

/-- One move at instance `k`, which is `u`. -/
def actOn (k : Nat) (u : Codec) (m : Move) (s : State) : Host.Outcome State Fault Refusal :=
  match m with
  | .offer c => .next (s.setCodec k (u.offer c))
  | .answer => answer k u s
  | .take => .next (s.setCodec k u.take)
  | .assertReset => .next (s.setCodec k u.assertReset)
  | .releaseReset => .next (s.setCodec k u.releaseReset)
  | .read f => s.readField u f
  | .forward cmd => s.forward k u cmd
  | .branchOk skip => s.branchOk k u skip

/-- One move at instance `k`, if the platform has it (60_exceptions.md R138). -/
def act (k : Nat) (m : Move) (s : State) : Host.Outcome State Fault Refusal :=
  match s.codecs[k]? with
  | none => .fault .noSuchInstance
  | some u => actOn k u m s

/-- No move is scheduled: the lowest-numbered instance that can answer does so, and if there is none nothing happens
(70_reset_and_hazards.md R151; DESIGN CHOICE, unsafe: log entry 2). -/
def idle (s : State) : Host.Outcome State Fault Refusal :=
  match s.firstReady with
  | none => .next s
  | some k => act k .answer s

/-- Make `c` the command that the next step answers: the oldest of instance 0, which moves next. -/
def State.placeCommand (s : State) (c : Command) : State :=
  match s.codecs with
  | [] => { s with codecs := [Codec.atReset.placeCommand c], schedule := (0, .answer) :: s.schedule }
  | u :: us => { s with codecs := u.placeCommand c :: us, schedule := (0, .answer) :: s.schedule }

end Sys2Proof.Machine
end

