-- ==== Sys2Proof/Machine/Step.lean ====
section
/-! DEFINITION. One step of the machine: the next scheduled move. -/

namespace Sys2Proof.Machine

/-- The next scheduled move is made; with none scheduled, `idle` (10_state.md R34, 00_scope.md R14). -/
def step (s : State) : Host.Outcome State Fault Refusal :=
  match s.schedule with
  | [] => idle s
  | (k, m) :: rest => act k m { s with schedule := rest }

/-- The state in which the very next step answers the command whose command byte is `w` and whose operand fields are
zero, at instance 0 (log entry 3). A command byte has exactly 8 bits (30_encoding.md R59). -/
def State.withFetchWord (s : State) (nbits w : Nat) : State := s.placeCommand (commandOfWord (w % 2 ^ nbits))

end Sys2Proof.Machine
end

