-- ==== Sys2Proof/Machine/Pseudo.lean ====
section
/-! DEFINITION. The pseudo-operations: the command sequences a host issues (30_encoding.md R64), and the written form of a
response (30_encoding.md R63). -/

namespace Sys2Proof.Machine

/-- The nine rows of 30_encoding.md R64. -/
inductive PseudoOp where
  | encodeCanonical (v : Value)
  | decodeCanonical (s : List Byte)
  | encodeBinary (v : Value)
  | decodeBinary (b : List Byte)
  | timestampOfValue (v : Value)
  | timestampOfString (s : List Byte)
  | timestampOfBinary (b : List Byte)
  | stringToBinary (s : List Byte)
  | binaryToString (b : List Byte)
deriving DecidableEq, Repr

/-- Present a command, let it be answered, take the response. -/
def callMoves (i : Instr) : List Move := [.offer (encode i), .answer, .take]

/-- Unless the last status is OK stop; else pass `out_val` to the command byte `cmd`, let it be answered, take the response. -/
def thenMoves (cmd : Byte) : List Move := [.branchOk 3, .forward cmd, .answer, .take]

/-- The expansion of a pseudo-operation (30_encoding.md R64). -/
def PseudoOp.moves : PseudoOp → List Move
  | .encodeCanonical v => callMoves (.enc32 v)
  | .decodeCanonical s => callMoves (.dec32 s)
  | .encodeBinary v => callMoves (.pack128 v)
  | .decodeBinary b => callMoves (.unpack128 b)
  | .timestampOfValue v => callMoves (.tsx v)
  | .timestampOfString s => callMoves (.dec32 s) ++ thenMoves 0x05#8
  | .timestampOfBinary b => callMoves (.unpack128 b) ++ thenMoves 0x05#8
  | .stringToBinary s => callMoves (.dec32 s) ++ thenMoves 0x03#8
  | .binaryToString b => callMoves (.unpack128 b) ++ thenMoves 0x01#8

/-- The responses of a two-command sequence: the second command gets the `out_val` of the first, and is issued only if
the first response is OK (30_encoding.md R64). -/
def chainResponses (first : Response) (second : Value → Instr) : List Response :=
  match Status.ofCode first.status, first.outVal with
  | some .ok, some v => [first, responseOf (second v)]
  | _, _ => [first]

/-- The responses a pseudo-operation gets, in order (30_encoding.md R64). -/
def PseudoOp.responses : PseudoOp → List Response
  | .encodeCanonical v => [enc32Response v]
  | .decodeCanonical s => [dec32Response s]
  | .encodeBinary v => [pack128Response v]
  | .decodeBinary b => [unpack128Response b]
  | .timestampOfValue v => [tsxResponse v]
  | .timestampOfString s => chainResponses (dec32Response s) .tsx
  | .timestampOfBinary b => chainResponses (unpack128Response b) .tsx
  | .stringToBinary s => chainResponses (dec32Response s) .pack128
  | .binaryToString b => chainResponses (unpack128Response b) .enc32

/-- The operand string of a pseudo-operation fits the lanes (10_state.md R27). -/
def PseudoOp.WellFormed : PseudoOp → Prop
  | .decodeCanonical s => s.length ≤ Config.maxInLen
  | .decodeBinary b => b.length ≤ Config.maxInLen
  | .timestampOfString s => s.length ≤ Config.maxInLen
  | .timestampOfBinary b => b.length ≤ Config.maxInLen
  | .stringToBinary s => s.length ≤ Config.maxInLen
  | .binaryToString b => b.length ≤ Config.maxInLen
  | _ => True

/-- The moves of one host at instance `k`. -/
def movesAt (k : Nat) (ms : List Move) : List (Nat × Move) := ms.map fun m => (k, m)

/-- `n` hexadecimal digits of `x`, most significant first, in capitals. -/
def hexDigits (n x : Nat) : String :=
  String.ofList ((List.range n).map fun i => (Nat.digitChar ((x >>> (4 * (n - 1 - i))) % 16)).toUpper)

/-- The lanes of `out_bytes` as a response writes them: a canonical string in quotes, a binary form in brackets. -/
def writtenBytes (bs : List Byte) : String :=
  if bs.length = 26 then "\"" ++ String.ofList (bs.map fun b => Char.ofNat b.toNat) ++ "\""
  else "[" ++ String.intercalate " " (bs.map fun b => hexDigits 2 b.toNat) ++ "]"

/-- `-> STATUS field=value ...`: the fields not shown have no value (30_encoding.md R63). A code 4 to 7 has no name. That
`out_val` has 32 digits and `out_ts` 12, leading zeros written out, is the model's choice, and so are the order of the fields
and the form of the bytes: DESIGN CHOICE, log entry 16. -/
def Response.written (r : Response) : String :=
  "-> " ++ ((Status.ofCode r.status).map Status.name).getD ""
    ++ (r.outVal.map fun v => " out_val=0x" ++ hexDigits 32 v.toNat).getD ""
    ++ (r.outTs.map fun t => " out_ts=0x" ++ hexDigits 12 t.toNat).getD ""
    ++ (r.outLen.map fun n => " out_len=" ++ toString n.toNat ++ " out_bytes=" ++ writtenBytes (r.outBytes.filterMap id)).getD ""

end Sys2Proof.Machine
end

