-- ==== Sys2Proof/Safety.lean ====
section
/-! DEFINITION. What counts as a well-formed state, a safe run and a finished run, in the terms claims use. -/

namespace Sys2Proof.Machine

/-- The response carries no payload (10_state.md R32, R33). -/
def Response.NoPayload (r : Response) : Prop :=
  r.outVal = none ∧ r.outTs = none ∧ r.outLen = none ∧ r.outBytes = List.replicate 26 none

/-- The response carries exactly the first `n` lanes of `out_bytes`, and `out_len = n` (10_state.md R32). -/
def Response.OnlyBytes (r : Response) (n : Nat) : Prop :=
  r.outVal = none ∧ r.outTs = none ∧ r.outLen = some (BitVec.ofNat 5 n) ∧ r.outBytes.length = 26 ∧
    ∀ i < 26, (r.outBytes.getD i none).isSome ↔ i < n

/-- The response carries exactly `out_val` (10_state.md R32). -/
def Response.OnlyValue (r : Response) : Prop :=
  r.outVal.isSome ∧ r.outTs = none ∧ r.outLen = none ∧ r.outBytes = List.replicate 26 none

/-- The response carries exactly `out_ts` (10_state.md R32). -/
def Response.OnlyTimestamp (r : Response) : Prop :=
  r.outVal = none ∧ r.outTs.isSome ∧ r.outLen = none ∧ r.outBytes = List.replicate 26 none

/-- The response is one that the rules can produce: OK with one of the payloads of 10_state.md R32, or a status 1 to 3
with none (R31). -/
def Response.WellFormed (r : Response) : Prop :=
  (r.status = 0#3 ∧ (r.OnlyBytes 26 ∨ r.OnlyBytes 16 ∨ r.OnlyValue ∨ r.OnlyTimestamp)) ∨
    ((r.status = 1#3 ∨ r.status = 2#3 ∨ r.status = 3#3) ∧ r.NoPayload)

/-- The responses to everything an instance has accepted, in acceptance order: those taken, the one that waits, and those
of the commands not yet answered (70_reset_and_hazards.md R150). -/
def Codec.history (u : Codec) : List Response :=
  u.taken ++ u.response.toList ++ u.queue.map commandResponse

/-- An instance in good order: no more than MAX_OUTSTANDING commands (70_reset_and_hazards.md R151), nothing held in reset
(R145, R146), commands that fit the ports (10_state.md R25), responses that the rules can produce (R31, R32). -/
structure Codec.WellFormed (u : Codec) : Prop where
  withinCapacity : u.occupancy ≤ Config.maxOutstanding
  emptyInReset : u.inReset = true → u.queue = [] ∧ u.response = none
  queueFits : ∀ c ∈ u.queue, c.WellFormed
  responseFits : ∀ r ∈ u.response, r.WellFormed
  takenFits : ∀ r ∈ u.taken, r.WellFormed
  unacceptedFits : ∀ c ∈ u.unaccepted, c.WellFormed

/-- A move whose command, if it offers one, fits the ports. -/
def Move.WellFormed : Move → Prop
  | .offer c => c.WellFormed
  | _ => True

/-- The invariant of the machine. -/
structure State.Inv (s : State) : Prop where
  instances : s.codecs.length = Config.nInstances
  turnExists : s.turn < Config.nInstances
  codecsFit : ∀ u ∈ s.codecs, u.WellFormed
  movesFit : ∀ m ∈ s.schedule, m.2.WellFormed

/-- A move reads only what the last response taken defines: a payload field only when its status is OK and the field has a
value (70_reset_and_hazards.md R153 (d)), a status only when there is a response and its code has a meaning. -/
def Codec.ReadsDefined (u : Codec) : Move → Prop
  | .read f => ∃ r, u.taken.getLast? = some r ∧ r.status = 0#3 ∧ r.defines f = true
  | .forward _ => ∃ r, u.taken.getLast? = some r ∧ r.status = 0#3 ∧ r.outVal.isSome
  | .branchOk _ => ∃ r, u.taken.getLast? = some r ∧ r.status.toNat < 4
  | _ => True

/-- What a host must do for correctness (70_reset_and_hazards.md R153). Obligation (c), pairing responses with commands by
order, is how a host reads `taken`. -/
structure State.HostObeys (s : State) : Prop where
  /-- (a) while a command stands presented and not accepted, the host presents no other there, by an offer or a forward. That
  it may not take a refused command back and then present another is the model's choice: DESIGN CHOICE, log entry 19. -/
  holdsFields : ∀ k m rest u c, s.schedule = (k, m) :: rest → s.codecs[k]? = some u → u.presents m = some c →
    ∀ d ∈ u.unaccepted, d = c
  /-- (b) a waiting response is going to be taken -/
  takesResponses : ∀ k u, s.codecs[k]? = some u → u.response.isSome → (k, Move.take) ∈ s.schedule
  /-- (d) the host reads a payload only when the status is OK, and only defined fields of it -/
  readsDefined : ∀ k m rest u, s.schedule = (k, m) :: rest → s.codecs[k]? = some u → u.ReadsDefined m
  /-- (e) every offered command has `in_len <= MAX_IN_LEN` -/
  lengthsFit : ∀ m ∈ s.schedule, ∀ c, m.2 = .offer c → c.inLen ≤ Config.maxInLen

/-- The machine makes `n` steps from `s` and ends in `t`: no step faults or is refused. -/
def State.Reaches : State → Nat → State → Prop
  | s, 0, t => s = t
  | s, n + 1, t => ∃ s', step s = .next s' ∧ s'.Reaches n t

/-- A run has ended: the host has nothing more to present, every command it presented has been accepted, and the response of
every one has been taken (70_reset_and_hazards.md R155): none is owed, and none was dropped by a reset, after which it never
comes (R146). Its end state is each instance's list `taken`. -/
def State.Finished (s : State) : Prop :=
  s.schedule = [] ∧ ∀ u ∈ s.codecs, u.unaccepted = [] ∧ u.queue = [] ∧ u.response = none ∧ u.dropped = 0

end Sys2Proof.Machine
end

