-- ==== Sys2Proof/Certificates/Slice0/Obligations.lean ====
section
/-! DEFINITION. The statements for the provers. Each docstring names the rules of spec/ it formalises. -/

open Sys2Proof Sys2Proof.Machine

/-! ## Encoding -/

/-- 30_encoding.md R56: the five assigned command bytes, whatever the operand fields, stand for the five operations, and
no other byte is legal. -/
def Obligations.AssignedBytesDecodeToTheirOperations : Prop :=
  (∀ (v : Value) (n : Nat) (bs : List Byte), n ≤ Config.maxInLen →
    decode ⟨0b00000001#8, v, n, bs⟩ = .ok (.enc32 v) ∧
    decode ⟨0b00000010#8, v, n, bs⟩ = .ok (.dec32 (bs.take n)) ∧
    decode ⟨0b00000011#8, v, n, bs⟩ = .ok (.pack128 v) ∧
    decode ⟨0b00000100#8, v, n, bs⟩ = .ok (.unpack128 (bs.take n)) ∧
    decode ⟨0b00000101#8, v, n, bs⟩ = .ok (.tsx v)) ∧
  (∀ (c : Command) (i : Instr), decode c = .ok i →
    c.cmd = 0x01#8 ∨ c.cmd = 0x02#8 ∨ c.cmd = 0x03#8 ∨ c.cmd = 0x04#8 ∨ c.cmd = 0x05#8) ∧
  decodeTableWord 8 0x01 = some (.enc32 0#128) ∧ decodeTableWord 8 0x02 = some (.dec32 []) ∧
  decodeTableWord 8 0x03 = some (.pack128 0#128) ∧ decodeTableWord 8 0x04 = some (.unpack128 []) ∧
  decodeTableWord 8 0x05 = some (.tsx 0#128)

/-- 30_encoding.md R57: the decode of a legal-length command, total over all 256 byte values. -/
def Obligations.DecodeIsTotalOverAllCommandBytes : Prop :=
  ∀ c : Command, c.inLen ≤ Config.maxInLen →
    (decode c).toOption =
      if c.cmd.toNat / 8 ≠ 0 then none
      else if c.cmd.toNat % 8 = 1 then some (.enc32 c.inVal)
      else if c.cmd.toNat % 8 = 2 then some (.dec32 (c.inBytes.take c.inLen))
      else if c.cmd.toNat % 8 = 3 then some (.pack128 c.inVal)
      else if c.cmd.toNat % 8 = 4 then some (.unpack128 (c.inBytes.take c.inLen))
      else if c.cmd.toNat % 8 = 5 then some (.tsx c.inVal)
      else none

/-- Every operation that fits the ports decodes from the command that presents it, with its whole operand
(30_encoding.md sections 1 and 2). -/
def Obligations.DecodeOfEncodeIsTheOperation : Prop :=
  ∀ i : Instr, i.WellFormed → decode (encode i) = .ok i

/-- A command that decodes is, in every field its operation reads, the command the encoder gives for what it decodes to
(30_encoding.md sections 1 and 2): no bit that is read is dropped. -/
def Obligations.EncodeOfDecodeAgreesOnTheReadFields : Prop :=
  ∀ (c : Command) (i : Instr), c.WellFormed → decode c = .ok i →
    i.WellFormed ∧ (encode i).cmd = c.cmd ∧
    ((c.cmd = 0x01#8 ∨ c.cmd = 0x03#8 ∨ c.cmd = 0x05#8) → (encode i).inVal = c.inVal) ∧
    ((c.cmd = 0x02#8 ∨ c.cmd = 0x04#8) →
      (encode i).inLen = c.inLen ∧ (encode i).inBytes.take c.inLen = c.inBytes.take c.inLen)

/-- The written forms of a command stand for the commands of 30_encoding.md section 4: each decodes to its operation, a
value with fewer than 32 digits is zero-extended, and a text is its ASCII bytes. -/
def Obligations.WrittenFormsDecodeToTheirOperations : Prop :=
  (∀ hex : List (BitVec 4), hex.length ≤ 32 →
    (hexValue hex).toNat = hex.foldl (fun x d => x * 16 + d.toNat) 0 ∧
    decode (assemble (.enc32 hex)) = .ok (.enc32 (hexValue hex)) ∧
    decode (assemble (.pack128 hex)) = .ok (.pack128 (hexValue hex)) ∧
    decode (assemble (.tsx hex)) = .ok (.tsx (hexValue hex))) ∧
  (∀ bs : List Byte, bs.length ≤ Config.maxInLen →
    decode (assemble (.dec32Bytes bs)) = .ok (.dec32 bs) ∧
    decode (assemble (.unpack128Bytes bs)) = .ok (.unpack128 bs)) ∧
  (∀ text : String, text.toList.length ≤ Config.maxInLen → (∀ ch ∈ text.toList, ch.toNat < 128) →
    ∃ bs, decode (assemble (.dec32Text text)) = .ok (.dec32 bs) ∧
      bs.map BitVec.toNat = text.toList.map Char.toNat) ∧
  (∀ c : Command, assemble (.raw c) = c)

/-! ## The operations -/

/-- 40_base32_codec.md R80 and 20_memory.md R41: ENC32, whole: the command it decodes from, the response with every
field, the bit groups of the two halves, the corner cases and the example. -/
def Obligations.Enc32FollowsItsRule : Prop :=
  (∀ c : Command, c.cmd = 0x01#8 → c.inLen ≤ Config.maxInLen → decode c = .ok (.enc32 c.inVal)) ∧
  (∀ (v : Value) (s : State),
    exec (.enc32 v) s = .next (s.respond
        { status := 0#3, outVal := none, outTs := none, outLen := some 26#5,
          outBytes :=
            ((List.range 10).map fun i =>
              some (encSym (((v.extractLsb' 80 48).zeroExtend 50).extractLsb' (45 - 5 * i) 5))) ++
            ((List.range 16).map fun j =>
              some (encSym ((v.extractLsb' 0 80).extractLsb' (75 - 5 * j) 5))) })) ∧
  (enc32Response 0#128).bytes = asciiBytes "00000000000000000000000000" ∧
  (enc32Response (BitVec.allOnes 128)).bytes = asciiBytes "7ZZZZZZZZZZZZZZZZZZZZZZZZZ" ∧
  (∀ v : Value, ∃ b : Byte, (enc32Response v).bytes.head? = some b ∧ 0x30#8 ≤ b ∧ b ≤ 0x37#8) ∧
  (enc32Response 0x0158FE351E17318477FECDBC6F641ED4#128).bytes = asciiBytes "01B3Z3A7GQ6627FZPDQHQP87PM"

/-- 40_base32_codec.md R86: DEC32, whole: the command it decodes from, the three outcomes with every response field, the
corner cases and the example. The outcome INVALID_TIMESTAMP is the spec's own choice (92_eei_decisions.md D6, log entry 11). -/
def Obligations.Dec32FollowsItsRule : Prop :=
  (∀ c : Command, c.cmd = 0x02#8 → c.inLen ≤ Config.maxInLen →
    decode c = .ok (.dec32 (c.inBytes.take c.inLen))) ∧
  (∀ c : Command, c.cmd = 0x02#8 → Config.maxInLen < c.inLen → (commandResponse c).status = 3#3) ∧
  (∀ (str : List Byte) (s : State),
    exec (.dec32 str) s = .next (s.respond
        (if (normSyms str).length ≠ 26 then
          { status := 1#3, outVal := none, outTs := none, outLen := none, outBytes := List.replicate 26 none }
        else if 2 ^ 48 ≤ radix32 ((normSyms str).take 10) then
          { status := 2#3, outVal := none, outTs := none, outLen := none, outBytes := List.replicate 26 none }
        else
          { status := 0#3,
            outVal := some (BitVec.ofNat 128
              (radix32 ((normSyms str).take 10) * 2 ^ 80 + radix32 ((normSyms str).drop 10))),
            outTs := none, outLen := none, outBytes := List.replicate 26 none }))) ∧
  (dec32Response []).status = 1#3 ∧
  (∀ str : List Byte, (∀ b ∈ str, decSym b = none) → (dec32Response str).status = 1#3) ∧
  (∀ str : List Byte, dec32Response (str.map upper) = dec32Response str) ∧
  (∀ (a z : List Byte) (b : Byte), decSym b = none → dec32Response (a ++ b :: z) = dec32Response (a ++ z)) ∧
  (∀ b ∈ asciiBytes "-OILUoilu", decSym b = none) ∧
  (∀ str : List Byte, str.length = 26 → (∃ b ∈ str, decSym b = none) → (dec32Response str).status = 1#3) ∧
  (dec32Response (asciiBytes "7ZZZZZZZZZZZZZZZZZZZZZZZZZ")).outVal = some (BitVec.allOnes 128) ∧
  (dec32Response (asciiBytes "80000000000000000000000000")).status = 2#3 ∧
  (dec32Response (asciiBytes "01B3Z3A7GQ6627FZPDQHQP87PM")).outVal
    = some 0x0158FE351E17318477FECDBC6F641ED4#128

/-- 41_binary_codec.md R102 and R103: PACK128, whole: the command it decodes from, the response with every field, the
corner cases and the example. -/
def Obligations.Pack128FollowsItsRule : Prop :=
  (∀ c : Command, c.cmd = 0x03#8 → c.inLen ≤ Config.maxInLen → decode c = .ok (.pack128 c.inVal)) ∧
  (∀ (v : Value) (s : State),
    exec (.pack128 v) s = .next (s.respond
        { status := 0#3, outVal := none, outTs := none, outLen := some 16#5,
          outBytes :=
            ((List.range 16).map fun k => some (BitVec.ofNat 8 (v.toNat / 2 ^ (120 - 8 * k)))) ++
            List.replicate 10 none })) ∧
  (∀ v : Value, (pack128Response v).bytes.length = 16 ∧
    (pack128Response v).bytes.take 6 =
      (List.range 6).map (fun k => BitVec.ofNat 8 ((timestampOf v).toNat / 2 ^ (40 - 8 * k))) ∧
    (pack128Response v).bytes.drop 6 =
      (List.range 10).map (fun k => BitVec.ofNat 8 ((randomOf v).toNat / 2 ^ (72 - 8 * k)))) ∧
  (pack128Response 0#128).bytes = List.replicate 16 0x00#8 ∧
  (pack128Response (BitVec.allOnes 128)).bytes = List.replicate 16 0xFF#8 ∧
  (pack128Response 0x0158FE351E17318477FECDBC6F641ED4#128).bytes =
    [0x01#8, 0x58#8, 0xFE#8, 0x35#8, 0x1E#8, 0x17#8, 0x31#8, 0x84#8,
     0x77#8, 0xFE#8, 0xCD#8, 0xBC#8, 0x6F#8, 0x64#8, 0x1E#8, 0xD4#8]

/-- 41_binary_codec.md R106: UNPACK128, whole: the command it decodes from, the two outcomes with every response field,
the corner cases and the example. The value is `b[0] ++ b[1] ++ ... ++ b[15]`. -/
def Obligations.Unpack128FollowsItsRule : Prop :=
  (∀ c : Command, c.cmd = 0x04#8 → c.inLen ≤ Config.maxInLen →
    decode c = .ok (.unpack128 (c.inBytes.take c.inLen))) ∧
  (∀ c : Command, c.cmd = 0x04#8 → Config.maxInLen < c.inLen → (commandResponse c).status = 3#3) ∧
  (∀ (b : List Byte) (s : State),
    exec (.unpack128 b) s = .next (s.respond
        (if b.length = 16 then
          { status := 0#3,
            outVal := some (BitVec.ofNat 128 (b.foldl (fun x d => x * 256 + d.toNat) 0)),
            outTs := none, outLen := none, outBytes := List.replicate 26 none }
        else
          { status := 1#3, outVal := none, outTs := none, outLen := none, outBytes := List.replicate 26 none }))) ∧
  (∀ c d : Command, c.cmd = 0x04#8 → d.cmd = 0x04#8 → c.inLen = 16 → d.inLen = 16 →
    c.inBytes.take 16 = d.inBytes.take 16 → commandResponse c = commandResponse d) ∧
  (unpack128Response (asciiBytes "0123456789ABCDEF")).outVal
    = some 0x30313233343536373839414243444546#128 ∧
  (unpack128Response
    [0x01#8, 0x58#8, 0xFE#8, 0x35#8, 0x1E#8, 0x17#8, 0x31#8, 0x84#8,
     0x77#8, 0xFE#8, 0xCD#8, 0xBC#8, 0x6F#8, 0x64#8, 0x1E#8, 0xD4#8]).outVal
    = some 0x0158FE351E17318477FECDBC6F641ED4#128

/-- 42_timestamp_extractor.md R116: TSX, whole: the command it decodes from, the response with every field, the corner
cases and the example. -/
def Obligations.TsxFollowsItsRule : Prop :=
  (∀ c : Command, c.cmd = 0x05#8 → c.inLen ≤ Config.maxInLen → decode c = .ok (.tsx c.inVal)) ∧
  (∀ (v : Value) (s : State),
    exec (.tsx v) s = .next (s.respond
        { status := 0#3, outVal := none, outTs := some (BitVec.ofNat 48 (v.toNat / 2 ^ 80)),
          outLen := none, outBytes := List.replicate 26 none })) ∧
  (∀ (ts : Timestamp) (r r' : Random), tsxResponse (ts ++ r) = tsxResponse (ts ++ r')) ∧
  (tsxResponse 0#128).outTs = some 0#48 ∧
  (tsxResponse (BitVec.allOnes 128)).outTs = some 0xFFFFFFFFFFFF#48 ∧
  (tsxResponse 0x0158FE351E17318477FECDBC6F641ED4#128).outTs = some 0x0158FE351E17#48 ∧
  (0x0158FE351E17#48).toNat = 1481733643799

/-- 10_state.md R23: the pair `(ts, rnd)` and the value are one and the same. -/
def Obligations.ValueIsItsTimestampAndRandomPart : Prop :=
  (∀ v : Value, v.toNat = (timestampOf v).toNat * 2 ^ 80 + (randomOf v).toNat ∧
    (timestampOf v).toNat = v.toNat / 2 ^ 80 ∧ (randomOf v).toNat = v.toNat % 2 ^ 80 ∧
    valueOf (timestampOf v) (randomOf v) = v) ∧
  (∀ (ts : Timestamp) (rnd : Random), timestampOf (valueOf ts rnd) = ts ∧ randomOf (valueOf ts rnd) = rnd)

/-- 40_base32_codec.md R83: split encoding equals whole encoding: character `k` is `ENC_SYM` of group `k` of the value cut
into 26 groups of 5 bits from the top of 130. -/
def Obligations.SplitEncodingEqualsWholeEncoding : Prop :=
  ∀ v : Value,
    (enc32Response v).bytes = (digits32 26 v.toNat).map encSym ∧
    ∀ k < 26, (enc32Response v).bytes[k]? = some (encSym ((v.zeroExtend 130).extractLsb' (125 - 5 * k) 5))

/-- 40_base32_codec.md R81: the timestamp half is 50 bits wide: its top two bits are always zero, and the first character
is one of `0`..`7`, the top three bits of the value. -/
def Obligations.FirstCharacterIsTopThreeBits : Prop :=
  ∀ v : Value,
    (∀ d ∈ (digits32 10 (timestampOf v).toNat).head?, d.extractLsb' 3 2 = 0#2) ∧
    (enc32Response v).bytes.head? = some (0x30#8 + (v.extractLsb' 125 3).zeroExtend 8)

/-- 40_base32_codec.md R82: every byte ENC32 writes is one of the 32 bytes of the alphabet, and `out_len` is always 26. -/
def Obligations.EncodedBytesAreInTheAlphabet : Prop :=
  ∀ v : Value, (enc32Response v).outLen = some 26#5 ∧ (enc32Response v).bytes.length = 26 ∧
    ∀ b ∈ (enc32Response v).bytes, b ∈ asciiBytes "0123456789ABCDEFGHJKMNPQRSTVWXYZ"

/-- 40_base32_codec.md R84: canonical strings sort as their values do, and as their timestamps do where these differ. -/
def Obligations.CanonicalStringsSortAsValues : Prop :=
  ∀ v w : Value,
    (v.toNat < w.toNat →
      List.Lex (fun a b : Byte => a.toNat < b.toNat) (enc32Response v).bytes (enc32Response w).bytes) ∧
    ((timestampOf v).toNat < (timestampOf w).toNat →
      List.Lex (fun a b : Byte => a.toNat < b.toNat) (enc32Response v).bytes (enc32Response w).bytes)

/-- 41_binary_codec.md R104: binary forms sort as their values do. -/
def Obligations.BinaryFormsSortAsValues : Prop :=
  ∀ v w : Value, v.toNat < w.toNat →
    List.Lex (fun a b : Byte => a.toNat < b.toNat) (pack128Response v).bytes (pack128Response w).bytes

/-- 40_base32_codec.md R87: strings with the same normalization get the same response: case does not count, nor does any
byte outside the alphabet. -/
def Obligations.EquallyNormalizedStringsDecodeAlike : Prop :=
  (∀ (a b : List Byte) (s : State), normSyms a = normSyms b → exec (.dec32 a) s = exec (.dec32 b) s) ∧
  (∀ (a : List Byte) (s : State), exec (.dec32 (a.map upper)) s = exec (.dec32 a) s) ∧
  (∀ (a z : List Byte) (b : Byte) (s : State), decSym b = none →
    exec (.dec32 (a ++ b :: z)) s = exec (.dec32 (a ++ z)) s)

/-- 40_base32_codec.md R88: DEC32 gives INVALID_LENGTH exactly when the normalized length is not 26, whatever the timestamp
symbols and the raw length. -/
def Obligations.Dec32RejectsExactlyTheWrongLengths : Prop :=
  ∀ (str : List Byte) (s : State) (u : Codec), s.codecs[s.turn]? = some u →
    ∃ t u' r, exec (.dec32 str) s = .next t ∧ t.codecs[s.turn]? = some u' ∧ u'.response = some r ∧
      (r.status = 1#3 ↔ (normSyms str).length ≠ 26) ∧ (r.status = 1#3 → r.NoPayload)

/-- 40_base32_codec.md R89: after the length check, INVALID_TIMESTAMP with no payload exactly when the timestamp half is
2^48 or more, that is, when the first symbol is 8 or more. The outcome is the spec's own choice (92_eei_decisions.md D6, log entry 11). -/
def Obligations.Dec32RejectsExactlyTheWideTimestamps : Prop :=
  ∀ (str : List Byte) (x : Sym) (xs : List Sym) (s : State) (u : Codec),
    normSyms str = x :: xs → xs.length = 25 → s.codecs[s.turn]? = some u →
    (2 ^ 48 ≤ radix32 ((normSyms str).take 10) ↔ 8 ≤ x.toNat) ∧
    (8 ≤ x.toNat ↔ encSym x ∈ asciiBytes "89ABCDEFGHJKMNPQRSTVWXYZ") ∧
    ∃ t u' r, exec (.dec32 str) s = .next t ∧ t.codecs[s.turn]? = some u' ∧ u'.response = some r ∧
      (r.status = 2#3 ↔ 8 ≤ x.toNat) ∧ (r.status = 2#3 → r.NoPayload)

/-- The sixteen symbols of the random half never overflow 80 bits, and no error comes from them: the status of a string of the
right length depends on its first ten symbols (40_base32_codec.md section 3). That a timestamp half of 2^48 or more is
INVALID_TIMESTAMP is the spec's own choice (92_eei_decisions.md D6, log entry 11). -/
def Obligations.RandomHalfNeverOverflows : Prop :=
  (∀ ds : List Sym, ds.length = 16 → radix32 ds < 2 ^ 80) ∧
  (∀ str : List Byte, (normSyms str).length = 26 →
    radix32 ((normSyms str).drop 10) < 2 ^ 80 ∧
    (dec32Response str).status = if 2 ^ 48 ≤ radix32 ((normSyms str).take 10) then 2#3 else 0#3)

/-- DEC32 completes with the whole value on every string of 26 symbols whose first is below 8: the value is the 26-digit
radix-32 number the symbols write (40_base32_codec.md section 3). -/
def Obligations.Dec32CompletesWithTheWholeRadixValue : Prop :=
  ∀ (str : List Byte) (x : Sym) (xs : List Sym) (s : State),
    normSyms str = x :: xs → xs.length = 25 → x.toNat < 8 →
    radix32 (normSyms str) < 2 ^ 128 ∧
    exec (.dec32 str) s = .next (s.respond
        { status := 0#3, outVal := some (BitVec.ofNat 128 (radix32 (normSyms str))), outTs := none,
          outLen := none, outBytes := List.replicate 26 none })

/-- 40_base32_codec.md R91: DEC32 of the 26 output bytes of ENC32 gives the value back, for every value. -/
def Obligations.Dec32OfEnc32IsTheValue : Prop :=
  ∀ c d : Command, c.cmd = 0x01#8 → c.inLen ≤ Config.maxInLen → d.cmd = 0x02#8 → d.inLen = 26 →
    d.inBytes.take 26 = (commandResponse c).bytes →
    (commandResponse d).status = 0#3 ∧ (commandResponse d).outVal = some c.inVal

/-- 40_base32_codec.md R92: ENC32 of what DEC32 accepts gives the normalized, uppercased form of the string. -/
def Obligations.Enc32OfDec32IsTheNormalizedString : Prop :=
  (∀ (str : List Byte) (v : Value), (dec32Response str).status = 0#3 → (dec32Response str).outVal = some v →
    (enc32Response v).bytes = (normSyms str).map encSym ∧
    (enc32Response v).bytes = (str.filter fun b => (decSym b).isSome).map upper) ∧
  (∀ a b : List Byte, normSyms a = normSyms b → dec32Response a = dec32Response b) ∧
  (∃ a b : List Byte, a ≠ b ∧ ∃ v, (dec32Response a).outVal = some v ∧ (dec32Response b).outVal = some v)

/-- 20_memory.md R40 and 41_binary_codec.md R101: the binary form's five big-endian fields, their place in the value, and
the reassembly. -/
def Obligations.BinaryFormHasFiveBigEndianFields : Prop :=
  ∀ v : Value,
    let b := (pack128Response v).bytes
    (∀ k < 16, b[k]? = some (v.extractLsb' (120 - 8 * k) 8)) ∧
    bigEndian (b.take 4) = (v.extractLsb' 96 32).toNat ∧
    bigEndian ((b.drop 4).take 2) = (v.extractLsb' 80 16).toNat ∧
    bigEndian ((b.drop 6).take 2) = (v.extractLsb' 64 16).toNat ∧
    bigEndian ((b.drop 8).take 4) = (v.extractLsb' 32 32).toNat ∧
    bigEndian ((b.drop 12).take 4) = (v.extractLsb' 0 32).toNat ∧
    bigEndian b = v.toNat ∧
    (timestampOf v).toNat = (bigEndian (b.take 4) <<< 16) ||| bigEndian ((b.drop 4).take 2) ∧
    (randomOf v).toNat = (bigEndian ((b.drop 6).take 2) <<< 64) |||
      (bigEndian ((b.drop 8).take 4) <<< 32) ||| bigEndian ((b.drop 12).take 4)

/-- 41_binary_codec.md R107: UNPACK128 gives INVALID_LENGTH exactly when `in_len != 16`. -/
def Obligations.Unpack128RejectsExactlyTheWrongLengths : Prop :=
  ∀ c : Command, c.WellFormed → c.cmd = 0x04#8 → c.inLen ≤ Config.maxInLen →
    ((commandResponse c).status = 1#3 ↔ c.inLen ≠ 16) ∧ ((commandResponse c).status = 1#3 → (commandResponse c).NoPayload)

/-- 41_binary_codec.md R109: the binary codec round-trips both ways. -/
def Obligations.BinaryCodecRoundTrips : Prop :=
  (∀ v : Value, (unpack128Response (pack128Response v).bytes).status = 0#3 ∧
    (unpack128Response (pack128Response v).bytes).outVal = some v) ∧
  (∀ b : List Byte, b.length = 16 → ∃ v, (unpack128Response b).outVal = some v ∧ (pack128Response v).bytes = b)

/-- 41_binary_codec.md R110: the two serial forms agree on the value. -/
def Obligations.SerialFormsAgree : Prop :=
  (∀ b : List Byte, b.length = 16 → ∃ v, (unpack128Response b).outVal = some v ∧
    (dec32Response (enc32Response v).bytes).outVal = some v) ∧
  (∀ (str : List Byte) (v : Value), (dec32Response str).status = 0#3 → (dec32Response str).outVal = some v →
    (unpack128Response (pack128Response v).bytes).outVal = some v)

/-- 42_timestamp_extractor.md R119: TSX agrees with both serial forms, and with the sequences over them. -/
def Obligations.TimestampAgreesWithSerialForms : Prop :=
  (∀ v : Value, ∃ ts, (tsxResponse v).outTs = some ts ∧
    ts.toNat = bigEndian ((pack128Response v).bytes.take 6) ∧
    ts.toNat = radix32 (normSyms ((enc32Response v).bytes.take 10))) ∧
  (∀ v : Value,
    (PseudoOp.timestampOfBinary (pack128Response v).bytes).responses.getLast? = some (tsxResponse v) ∧
    (PseudoOp.timestampOfString (enc32Response v).bytes).responses.getLast? = some (tsxResponse v))

/-! ## What a command's response depends on, and what an operation leaves alone -/

/-- The frame of the five operations: an operation writes the response of the instance whose turn it is and nothing else
(60_exceptions.md section 1, 10_state.md section 5). -/
def Obligations.OperationsWriteOnlyTheResponse : Prop :=
  ∀ (i : Instr) (s t : State), exec i s = .next t →
    t.turn = s.turn ∧ t.schedule = s.schedule ∧ t.codecs.length = s.codecs.length ∧
    ∀ (k : Nat) (u : Codec), s.codecs[k]? = some u → ∃ u', t.codecs[k]? = some u' ∧
      u'.inReset = u.inReset ∧ u'.queue = u.queue ∧ u'.taken = u.taken ∧ u'.unaccepted = u.unaccepted ∧
      u'.dropped = u.dropped ∧
      (k ≠ s.turn → u'.response = u.response) ∧ (k = s.turn → u'.response.isSome)

/-- 10_state.md R28: fields an operation ignores have no effect on the response. -/
def Obligations.IgnoredFieldsHaveNoEffect : Prop :=
  (∀ c d : Command, c.cmd = d.cmd → c.inLen ≤ Config.maxInLen → d.inLen ≤ Config.maxInLen →
    ((c.cmd = 0x01#8 ∨ c.cmd = 0x03#8 ∨ c.cmd = 0x05#8) → c.inVal = d.inVal →
      commandResponse c = commandResponse d) ∧
    ((c.cmd = 0x02#8 ∨ c.cmd = 0x04#8) → c.inLen = d.inLen →
      (∀ i < c.inLen, c.inBytes[i]? = d.inBytes[i]?) → commandResponse c = commandResponse d) ∧
    ((c.cmd.toNat = 0 ∨ 5 < c.cmd.toNat) → commandResponse c = commandResponse d)) ∧
  (∀ c : Command, Config.maxInLen < c.inLen → commandResponse c =
    { status := 3#3, outVal := none, outTs := none, outLen := none, outBytes := List.replicate 26 none })

/-- 10_state.md R35: equal commands get equal responses, at any instance, in any two states. -/
def Obligations.EqualCommandsGetEqualResponses : Prop :=
  ∀ (s s' : State) (k k' : Nat) (rest rest' : List (Nat × Move)) (u u' : Codec) (c : Command) (q q' : List Command),
    s.schedule = (k, .answer) :: rest → s'.schedule = (k', .answer) :: rest' →
    s.codecs[k]? = some u → s'.codecs[k']? = some u' →
    u.inReset = false → u'.inReset = false → u.response = none → u'.response = none →
    u.queue = c :: q → u'.queue = c :: q' →
    ∃ t t' w w' r, step s = .next t ∧ step s' = .next t' ∧ t.codecs[k]? = some w ∧ t'.codecs[k']? = some w' ∧
      w.response = some r ∧ w'.response = some r

/-- 60_exceptions.md R130 and R131: the outcome of every command, and so the priority of the causes. The row of
INVALID_TIMESTAMP is the spec's own choice (92_eei_decisions.md D6, log entry 11). -/
def Obligations.EveryCommandHasItsOneStatus : Prop :=
  ∀ c : Command, c.WellFormed →
    ((commandResponse c).status = 3#3 ↔ Config.maxInLen < c.inLen ∨ c.cmd.toNat = 0 ∨ 5 < c.cmd.toNat) ∧
    (c.inLen ≤ Config.maxInLen → (c.cmd = 0x01#8 ∨ c.cmd = 0x03#8 ∨ c.cmd = 0x05#8) → (commandResponse c).status = 0#3) ∧
    (c.inLen ≤ Config.maxInLen → c.cmd = 0x02#8 →
      let syms := normSyms (c.inBytes.take c.inLen)
      ((commandResponse c).status = 0#3 ↔ syms.length = 26 ∧ ∀ x ∈ syms.head?, x.toNat < 8) ∧
      ((commandResponse c).status = 1#3 ↔ syms.length ≠ 26) ∧
      ((commandResponse c).status = 2#3 ↔ syms.length = 26 ∧ ∀ x ∈ syms.head?, 8 ≤ x.toNat)) ∧
    (c.inLen ≤ Config.maxInLen → c.cmd = 0x04#8 →
      ((commandResponse c).status = 0#3 ↔ c.inLen = 16) ∧ ((commandResponse c).status = 1#3 ↔ c.inLen ≠ 16))

/-- 10_state.md R32: the payload of each operation, and none unless the status is OK. -/
def Obligations.ResponsesCarryExactlyTheirPayload : Prop :=
  ∀ c : Command,
    ((commandResponse c).status ≠ 0#3 → (commandResponse c).NoPayload) ∧
    ((commandResponse c).status = 0#3 →
      (c.cmd = 0x01#8 ∧ (commandResponse c).OnlyBytes 26) ∨ (c.cmd = 0x02#8 ∧ (commandResponse c).OnlyValue) ∨
      (c.cmd = 0x03#8 ∧ (commandResponse c).OnlyBytes 16) ∨ (c.cmd = 0x04#8 ∧ (commandResponse c).OnlyValue) ∨
      (c.cmd = 0x05#8 ∧ (commandResponse c).OnlyTimestamp))

/-! ## The step -/

/-- The invariant holds at reset (70_reset_and_hazards.md section 1). The values of `turn` and `schedule` are the model's own
choice (log entry 1), and so are the released reset input and the host's empty records (log entries 7, 8 and 18). -/
def Obligations.ResetMeetsTheInvariant : Prop := State.reset.Inv

/-- Every step keeps the invariant: no more than MAX_OUTSTANDING commands, nothing held in reset, commands that fit the
ports, only statuses 0 to 3 with their payloads (10_state.md sections 4 and 5, 70_reset_and_hazards.md sections 1 and 2).
Two clauses rest on the model's reading of the spec: that nothing is held while reset is asserted, since asserting it drops
everything at once (DEDUCED, log entry 7), and that MAX_OUTSTANDING counts a waiting response (DEDUCED, log entry 15). The
host's record of commands not yet accepted is the model's own (log entry 18). -/
def Obligations.StepKeepsTheInvariant : Prop :=
  ∀ s t : State, s.Inv → step s = .next t → t.Inv

/-- A step at which an instance answers runs the operation its oldest command decodes to, after that command has left the
queue: when its answer is the next move, or when no move is scheduled and no lower-numbered instance can answer
(10_state.md section 5, 60_exceptions.md section 1). The second case is the model's choice (log entry 2). -/
def Obligations.StepRunsTheDecodedOperation : Prop :=
  ∀ (s : State) (k : Nat) (rest : List (Nat × Move)) (u : Codec) (c : Command) (q : List Command) (i : Instr),
    (s.schedule = (k, .answer) :: rest ∨
      (s.schedule = [] ∧ rest = [] ∧ ∀ j < k, ∀ w, s.codecs[j]? = some w → w.canAnswer = false)) →
    s.codecs[k]? = some u → u.inReset = false → u.response = none → u.queue = c :: q → decode c = .ok i →
    step s = exec i { codecs := s.codecs.set k { u with queue := q }, turn := k, schedule := rest }

/-- 60_exceptions.md R127 and 30_encoding.md R58: an illegal command gets ILLEGAL_COMMAND with no payload, and nothing else
happens. -/
def Obligations.IllegalCommandsGetOnlyTheirStatus : Prop :=
  ∀ (s : State) (k : Nat) (rest : List (Nat × Move)) (u : Codec) (c : Command) (q : List Command),
    s.schedule = (k, .answer) :: rest → s.codecs[k]? = some u →
    u.inReset = false → u.response = none → u.queue = c :: q →
    (Config.maxInLen < c.inLen ∨ c.cmd.toNat = 0 ∨ 5 < c.cmd.toNat) →
    step s = .next
      { codecs := s.codecs.set k { u with
          queue := q,
          response := some { status := 3#3, outVal := none, outTs := none, outLen := none, outBytes := List.replicate 26 none } },
        turn := k, schedule := rest }

/-- 60_exceptions.md R132: a response with an error has no payload, and once it is taken the machine is as if the command
had not been there, but for the host's record of it. -/
def Obligations.ErrorsLeaveNoTrace : Prop :=
  ∀ (s : State) (k : Nat) (rest : List (Nat × Move)) (u : Codec) (c : Command) (q : List Command),
    s.schedule = (k, .answer) :: (k, .take) :: rest → s.codecs[k]? = some u →
    u.inReset = false → u.response = none → u.queue = c :: q → (commandResponse c).status ≠ 0#3 →
    (commandResponse c).NoPayload ∧
    s.Reaches 2 { codecs := s.codecs.set k { u with queue := q, taken := u.taken ++ [commandResponse c] },
                  turn := k, schedule := rest }

/-- Asserting reset drops the accepted commands and a waiting response, and after the machine's reset no instance holds either
(70_reset_and_hazards.md section 1). That they are dropped at the step that asserts reset, and that what the host has taken
stays with it, is the model's choice (DEDUCED, log entry 7); so do the commands not yet accepted, and the number of commands
lost is recorded (log entry 18). -/
def Obligations.ResetDropsCommandsAndResponses : Prop :=
  (∀ u ∈ State.reset.codecs, u.queue = [] ∧ u.response = none) ∧
  (∀ (s : State) (k : Nat) (rest : List (Nat × Move)) (u : Codec),
    s.schedule = (k, .assertReset) :: rest → s.codecs[k]? = some u →
    step s = .next { s with
      codecs := s.codecs.set k { u with
        inReset := true, queue := [], response := none,
        dropped := u.dropped + u.queue.length + (if u.response.isSome then 1 else 0) }, schedule := rest })

/-- 70_reset_and_hazards.md R145: while reset is asserted an instance accepts no command and delivers no response, whatever
move is made; exactly the release of its reset takes it out of reset. -/
def Obligations.NothingHappensDuringReset : Prop :=
  ∀ (s t : State) (k : Nat) (u : Codec),
    s.codecs[k]? = some u → u.inReset = true → u.queue = [] → u.response = none → step s = .next t →
    ∃ w, t.codecs[k]? = some w ∧ w.queue = [] ∧ w.response = none ∧ w.taken = u.taken ∧
      (w.inReset = false ↔ s.schedule.head? = some (k, .releaseReset))

/-- A command that an offer or a forward presents is accepted, with every field as it stands, exactly when `cmd_ready` is
true, and otherwise stays in the host's record of commands not yet accepted; `cmd_ready` is false in reset and while
MAX_OUTSTANDING commands have no taken response (70_reset_and_hazards.md sections 1 and 2). That `cmd_ready` is true at every
other time is the model's choice (log entry 17), what counts towards MAX_OUTSTANDING is its reading (DEDUCED, log entry 15),
and the record is its own (log entry 18). -/
def Obligations.CommandsAreAcceptedExactlyWhenReady : Prop :=
  ∀ (s : State) (k : Nat) (m : Move) (c : Command) (rest : List (Nat × Move)) (u : Codec),
    s.schedule = (k, m) :: rest → s.codecs[k]? = some u →
    (m = .offer c ∨ ∃ cmd r v, m = .forward cmd ∧ u.taken.getLast? = some r ∧ r.outVal = some v ∧ c = valueCommand cmd v) →
    (u.cmdReady = true ↔ u.inReset = false ∧
      u.queue.length + (if u.response.isSome then 1 else 0) < Config.maxOutstanding) ∧
    step s = .next { s with
      codecs := s.codecs.set k
        (if u.cmdReady then { u with queue := u.queue ++ [c], unaccepted := u.unaccepted.erase c }
          else { u with unaccepted := u.unaccepted.insert c }),
      schedule := rest }

/-- 70_reset_and_hazards.md R150: every accepted command gets exactly one response, in acceptance order, unless a reset
drops it, and a response stays presented, unchanged, until the host takes it; the response is that of the oldest command. -/
def Obligations.ResponsesKeepAcceptanceOrder : Prop :=
  (∀ (s t : State) (k : Nat) (u : Codec), s.codecs[k]? = some u → step s = .next t →
    s.schedule.head? ≠ some (k, .assertReset) →
    ∃ w, t.codecs[k]? = some w ∧
      (w.history = u.history ∨
        ∃ c, u.cmdReady = true ∧ w.history = u.history ++ [commandResponse c] ∧
          (s.schedule.head? = some (k, .offer c) ∨
            ∃ cmd v, s.schedule.head? = some (k, .forward cmd) ∧ c.cmd = cmd ∧ c.inVal = v ∧
              (u.taken.getLast?.bind Response.outVal) = some v)) ∧
      (∀ r, u.response = some r →
        (w.response = some r ∧ w.taken = u.taken) ∨
        (s.schedule.head? = some (k, .take) ∧ w.response = none ∧ w.taken = u.taken ++ [r])) ∧
      (u.response = none → w.taken = u.taken)) ∧
  (∀ (s : State) (k : Nat) (rest : List (Nat × Move)) (u : Codec) (c : Command) (q : List Command),
    s.schedule = (k, .answer) :: rest → s.codecs[k]? = some u →
    u.inReset = false → u.response = none → u.queue = c :: q →
    step s = .next
      { codecs := s.codecs.set k { u with queue := q, response := some (commandResponse c) }, turn := k, schedule := rest })

/-- An instance that is not in reset and whose host takes responses answers every accepted command: two moves for each
outstanding command (70_reset_and_hazards.md section 2). That a waiting response counts as outstanding is the model's reading
(DEDUCED, log entry 15). -/
def Obligations.OutstandingCommandsAreAllAnswered : Prop :=
  ∀ (s : State) (k : Nat) (rest : List (Nat × Move)) (u : Codec),
    s.codecs[k]? = some u → u.inReset = false →
    s.schedule = (List.replicate u.occupancy [(k, Move.answer), (k, Move.take)]).flatten ++ rest →
    ∃ t, s.Reaches (2 * u.occupancy) t ∧ t.schedule = rest ∧
      t.codecs = s.codecs.set k { u with queue := [], response := none, taken := u.history }

/-- A step changes at most the instance that moves: the instances share no state (60_exceptions.md section 4, 20_memory.md
section 3). -/
def Obligations.InstancesShareNothing : Prop :=
  ∀ (s t : State), step s = .next t →
    (∀ (k : Nat) (m : Move) (rest : List (Nat × Move)), s.schedule = (k, m) :: rest →
      ∀ j : Nat, j ≠ k → t.codecs[j]? = s.codecs[j]?) ∧
    (s.schedule = [] → ∃ k : Nat, ∀ j : Nat, j ≠ k → t.codecs[j]? = s.codecs[j]?)

/-- Two moves at different instances give the same instances and the same remaining schedule in either order
(20_memory.md section 3, 60_exceptions.md section 4). -/
def Obligations.MovesAtDifferentInstancesCommute : Prop :=
  ∀ (cs : List Codec) (turn j k : Nat) (m n : Move) (rest : List (Nat × Move)) (a : State), j ≠ k →
    State.Reaches { codecs := cs, turn := turn, schedule := (j, m) :: (k, n) :: rest } 2 a →
    ∃ b, State.Reaches { codecs := cs, turn := turn, schedule := (k, n) :: (j, m) :: rest } 2 b ∧
      b.codecs = a.codecs ∧ b.schedule = a.schedule

/-- CORE itself never stops: a step is never refused, and one that faults is a host's read, forward or branch on a response
field or status that has no value (there is no response, or the field of the last one taken has none), a branch on a status
code 4 to 7, or a move at an instance the platform does not have (60_exceptions.md section 3). -/
def Obligations.OnlyHostReadsStopTheMachine : Prop :=
  ∀ s : State, (∀ r, step s ≠ .refused r) ∧
    ∀ f, step s = .fault f → ∃ k m rest, s.schedule = (k, m) :: rest ∧
      ((s.codecs[k]? = none ∧ f = .noSuchInstance) ∨
        ∃ u, s.codecs[k]? = some u ∧
          ((f = .undefinedField ∧
              ((∃ g, m = .read g ∧ (u.taken = [] ∨ ∃ r, u.taken.getLast? = some r ∧ r.defines g = false)) ∨
                (∃ cmd, m = .forward cmd ∧ (u.taken = [] ∨ ∃ r, u.taken.getLast? = some r ∧ r.outVal = none)) ∨
                (∃ n, m = .branchOk n ∧ u.taken = []))) ∨
            (f = .undefinedStatus ∧ (∃ n, m = .branchOk n) ∧ ∃ r, u.taken.getLast? = some r ∧ 4 ≤ r.status.toNat)))

/-- 10_state.md R33: a host that reads a response field with no value faults; a read of a field with a value changes
nothing. Where the host has taken no response yet every field is without a value (10_state.md section 5), and a read, a
forward and a branch fault. -/
def Obligations.ReadingAnUndefinedFieldFaults : Prop :=
  (∀ (s : State) (k : Nat) (rest : List (Nat × Move)) (u : Codec) (r : Response),
    s.codecs[k]? = some u → u.taken.getLast? = some r →
    (∀ f, s.schedule = (k, .read f) :: rest →
      step s = if r.defines f then .next { s with schedule := rest } else .fault .undefinedField) ∧
    (r.defines .outVal = r.outVal.isSome ∧ r.defines .outTs = r.outTs.isSome ∧ r.defines .outLen = r.outLen.isSome ∧
      ∀ i, r.defines (.outByte i) = true ↔ ∃ b, r.outBytes[i]? = some (some b)) ∧
    (∀ cmd, s.schedule = (k, .forward cmd) :: rest → r.outVal = none → step s = .fault .undefinedField)) ∧
  (∀ (s : State) (k : Nat) (m : Move) (rest : List (Nat × Move)) (u : Codec),
    s.codecs[k]? = some u → u.taken = [] → s.schedule = (k, m) :: rest →
    ((∃ f, m = .read f) ∨ (∃ cmd, m = .forward cmd) ∨ ∃ n, m = .branchOk n) → step s = .fault .undefinedField)

/-- 30_encoding.md section 4: each pseudo-operation, issued at an idle instance, gets exactly the responses of its expansion: it
stops at the first response whose status is not OK, and passes `out_val` on otherwise. That an idle instance is ready is the
model's choice (log entry 17). -/
def Obligations.PseudoOperationsExpandToTheirResponses : Prop :=
  ∀ (s : State) (k : Nat) (u : Codec) (p : PseudoOp), p.WellFormed →
    s.codecs[k]? = some u → u.inReset = false → u.queue = [] → u.response = none →
    s.schedule = movesAt k p.moves →
    ∃ n t l, s.Reaches n t ∧ t.schedule = [] ∧
      t.codecs = s.codecs.set k { u with taken := u.taken ++ p.responses, unaccepted := l } ∧ l.Sublist u.unaccepted ∧
      ∀ i r, i + 1 < p.responses.length → p.responses[i]? = some r → r.status = 0#3

/-- A machine whose run has ended stays as it is (70_reset_and_hazards.md section 4). What a machine does when no move is
scheduled, and how a run records what is not accepted yet or was dropped, is the model's choice (log entries 2 and 18). -/
def Obligations.FinishedRunsStayFinished : Prop :=
  ∀ s : State, s.Finished → step s = .next s

/-- A host that keeps its obligations, and moves only at instances that exist, never stops the machine, and none of its
offered commands with an assigned byte is illegal (70_reset_and_hazards.md section 3). That an obedient host takes no refused
command back is the model's choice (log entry 19). -/
def Obligations.ObedientHostsNeverStopTheMachine : Prop :=
  ∀ s : State, s.HostObeys → (∀ m ∈ s.schedule, m.1 < s.codecs.length) →
    (∃ t, step s = .next t) ∧
    ∀ k c, (k, Move.offer c) ∈ s.schedule → 1 ≤ c.cmd.toNat → c.cmd.toNat ≤ 5 → (commandResponse c).status ≠ 3#3

/-- Releasing an instance's reset takes it out of reset, and from then on it accepts commands like any other time: the very
next command offered there is accepted (70_reset_and_hazards.md section 1). That the release changes nothing else is the
model's reading (DEDUCED, log entry 7), and that the instance is ready at once is the model's choice (log entry 17). -/
def Obligations.ReleaseTakesTheInstanceOutOfReset : Prop :=
  (∀ (s : State) (k : Nat) (rest : List (Nat × Move)) (u : Codec),
    s.schedule = (k, .releaseReset) :: rest → s.codecs[k]? = some u →
    step s = .next { s with codecs := s.codecs.set k { u with inReset := false }, schedule := rest }) ∧
  (∀ (s : State) (k : Nat) (c : Command) (rest : List (Nat × Move)) (u : Codec),
    s.schedule = (k, .releaseReset) :: (k, .offer c) :: rest → s.codecs[k]? = some u → u.queue = [] → u.response = none →
    s.Reaches 2 { s with
      codecs := s.codecs.set k { u with inReset := false, queue := [c], unaccepted := u.unaccepted.erase c },
      schedule := rest })

/-- What stands in the host's record of commands not yet accepted: a presented command leaves it when it is accepted and
stands in it until then, no other move changes it, and a host that keeps its obligations has at most one standing there
(70_reset_and_hazards.md sections 2, 3 and 4). The record is the model's own (log entry 18), and that an obedient host takes
no refused command back is its choice (log entry 19). -/
def Obligations.HostRecordHoldsWhatIsNotAccepted : Prop :=
  ∀ (s t : State) (k : Nat) (u : Codec), s.codecs[k]? = some u → step s = .next t →
    ∃ w, t.codecs[k]? = some w ∧
      ((∃ m c, s.schedule.head? = some (k, m) ∧ u.presents m = some c ∧
          ((u.cmdReady = true ∧ w.queue = u.queue ++ [c] ∧ w.unaccepted = u.unaccepted.erase c) ∨
            (u.cmdReady = false ∧ w.queue = u.queue ∧ w.unaccepted = u.unaccepted.insert c))) ∨
        ((∀ m, s.schedule.head? = some (k, m) → u.presents m = none) ∧ w.unaccepted = u.unaccepted)) ∧
      (s.HostObeys → u.unaccepted.length ≤ 1 → w.unaccepted.length ≤ 1)

/-- What becomes of an accepted command (70_reset_and_hazards.md sections 1, 2 and 4): at every step the responses taken, the
commands still owed one and the commands dropped by a reset grow together by one exactly when a command is accepted, and what
is taken or dropped stays so; so a run in which a reset dropped a command never ends. The count of dropped commands is the
model's own way to hold this (log entry 18). -/
def Obligations.AcceptedCommandsAreTakenOwedOrDropped : Prop :=
  (∀ (s t : State) (k : Nat) (u : Codec), s.codecs[k]? = some u → step s = .next t →
    ∃ w, t.codecs[k]? = some w ∧
      ((∃ m c, s.schedule.head? = some (k, m) ∧ u.presents m = some c ∧ u.cmdReady = true ∧
          w.taken.length + w.occupancy + w.dropped = u.taken.length + u.occupancy + u.dropped + 1) ∨
        ((∀ m c, s.schedule.head? = some (k, m) → u.presents m = some c → u.cmdReady = false) ∧
          w.taken.length + w.occupancy + w.dropped = u.taken.length + u.occupancy + u.dropped)) ∧
      u.taken <+: w.taken ∧ u.dropped ≤ w.dropped ∧
      (w.dropped ≠ u.dropped → s.schedule.head? = some (k, .assertReset))) ∧
  (∀ (s t : State) (k n : Nat) (u : Codec), s.codecs[k]? = some u → 0 < u.dropped → s.Reaches n t → ¬ t.Finished)
end

