-- ==== Sys2Proof/Laws/Config.lean ====
section
/-! SUPPORT. The bounds the open parameters meet, for every admissible value (00_scope.md R5). -/

namespace Sys2Proof.Config

theorem twentySeven_le_maxInLen : 27 ≤ maxInLen := Nat.le_add_left 27 spareLanes

theorem one_le_maxOutstanding : 1 ≤ maxOutstanding := Nat.le_add_left 1 spareOutstanding

theorem one_le_nInstances : 1 ≤ nInstances := Nat.le_add_left 1 spareInstances

theorem maxInLen_lt_two_pow_lenW : maxInLen < 2 ^ lenW :=
  Nat.lt_of_lt_of_le (Nat.lt_log2_self (n := maxInLen)) (Nat.pow_le_pow_right (by decide) (Nat.le_add_right _ _))

/-- Every width that can count the lanes is an admissible LEN_W: the least one plus some number of bits. -/
theorem admissible_widths (n w : Nat) (h : n < 2 ^ w) (hn : n ≠ 0) : ∃ spare, w = Nat.log2 n + 1 + spare :=
  ⟨w - (Nat.log2 n + 1), by have := (Nat.log2_lt hn).2 h; omega⟩

end Sys2Proof.Config
end

