-- ==== Sys2Proof/Laws/Operands.lean ====
section
/-! SUPPORT. The laws of radix-32 digits, big-endian bytes and the symbol lookups (00_scope.md R12, 40_base32_codec.md
R73, R76, R77). -/

namespace Sys2Proof.Machine

/-! ## Radix-32 digits -/

@[simp] theorem length_digits32 (n x : Nat) : (digits32 n x).length = n := by simp [digits32]

theorem digits32_zero (x : Nat) : digits32 0 x = [] := rfl

theorem digits32_succ (n x : Nat) :
    digits32 (n + 1) x = BitVec.ofNat 5 (x >>> (5 * n)) :: digits32 n x := by
  simp only [digits32, List.range_succ_eq_map, List.map_cons, List.map_map]
  refine congrArg₂ _ (by simp) (List.map_congr_left fun i hi => ?_)
  simp only [Function.comp, show n + 1 - 1 - (i + 1) = n - 1 - i by omega]

theorem getElem?_digits32 (n x i : Nat) (h : i < n) :
    (digits32 n x)[i]? = some (BitVec.ofNat 5 (x >>> (5 * (n - 1 - i)))) := by
  simp [digits32, h]

theorem radix32_lt (ds : List Sym) : radix32 ds < 32 ^ ds.length := by
  induction ds with
  | nil => simp [radix32]
  | cons d ds ih =>
    have hd : d.toNat + 1 ≤ 32 := d.isLt
    have := Nat.mul_le_mul_right (32 ^ ds.length) hd
    simp only [radix32, List.length_cons, Nat.pow_succ]
    grind

theorem radix32_append (a b : List Sym) : radix32 (a ++ b) = radix32 a * 32 ^ b.length + radix32 b := by
  induction a with
  | nil => simp [radix32]
  | cons d ds ih => simp only [List.cons_append, radix32, ih, List.length_append, Nat.pow_add]; ring

/-- The digits of a number write it, up to the digits there is room for. -/
theorem radix32_digits32 (n x : Nat) : radix32 (digits32 n x) = x % 32 ^ n := by
  induction n with
  | zero => simp [digits32_zero, radix32, Nat.mod_one]
  | succ n ih =>
    have h : x >>> (5 * n) = x / 32 ^ n := by rw [Nat.shiftRight_eq_div_pow, Nat.pow_mul]
    rw [digits32_succ, radix32, length_digits32, ih, h, BitVec.toNat_ofNat,
      Nat.pow_succ (n := 32), Nat.mod_mul (a := 32 ^ n), Nat.add_comm, Nat.mul_comm]

/-- Digits below position `n` do not see what stands above it. -/
theorem digits32_mul_add (n a x : Nat) : digits32 n (a * 32 ^ n + x) = digits32 n x := by
  induction n generalizing a with
  | zero => rfl
  | succ n ih =>
    have hpow : a * 32 ^ (n + 1) + x = a * 32 * 32 ^ n + x := by ring
    have head : (a * 32 * 32 ^ n + x) >>> (5 * n) = 32 * a + x >>> (5 * n) := by
      rw [Nat.shiftRight_eq_div_pow, Nat.shiftRight_eq_div_pow, Nat.pow_mul, Nat.mul_comm (a * 32),
        Nat.mul_add_div (Nat.pow_pos (by decide)), Nat.mul_comm a]
    rw [hpow, digits32_succ, digits32_succ, ih, head]
    refine congrArg₂ _ (BitVec.eq_of_toNat_eq ?_) rfl
    rw [BitVec.toNat_ofNat, BitVec.toNat_ofNat]
    exact Nat.mul_add_mod 32 a _

/-- Digits are unique: a list of digits is the digits of the number it writes (00_scope.md R12). -/
theorem digits32_radix32 (ds : List Sym) : digits32 ds.length (radix32 ds) = ds := by
  induction ds with
  | nil => rfl
  | cons d ds ih =>
    have head : (d.toNat * 32 ^ ds.length + radix32 ds) >>> (5 * ds.length) = d.toNat := by
      rw [Nat.shiftRight_eq_div_pow, Nat.pow_mul, Nat.mul_comm, Nat.mul_add_div (Nat.pow_pos (by decide)),
        Nat.div_eq_of_lt (radix32_lt ds), Nat.add_zero]
    rw [List.length_cons, digits32_succ, radix32, head, digits32_mul_add, ih, BitVec.ofNat_toNat, BitVec.setWidth_eq]

/-- Cutting a number into digits at a digit boundary (40_base32_codec.md R83). -/
theorem digits32_add (m n x : Nat) : digits32 (m + n) x = digits32 m (x / 32 ^ n) ++ digits32 n x := by
  induction m with
  | zero => simp [digits32_zero]
  | succ m ih =>
    rw [Nat.succ_add, digits32_succ, digits32_succ, ih, List.cons_append]
    congr 2
    rw [Nat.shiftRight_eq_div_pow, Nat.shiftRight_eq_div_pow, Nat.div_div_eq_div_mul, Nat.pow_mul, Nat.pow_mul,
      ← Nat.pow_add, Nat.add_comm]

theorem digits32_mod (n x : Nat) : digits32 n (x % 32 ^ n) = digits32 n x := by
  conv_rhs => rw [← Nat.div_add_mod' x (32 ^ n), digits32_mul_add]

/-! ## Big-endian bytes -/

theorem bigEndian_lt (bs : List Byte) : bigEndian bs < 256 ^ bs.length := by
  induction bs with
  | nil => simp [bigEndian]
  | cons b bs ih =>
    have hb : b.toNat + 1 ≤ 256 := b.isLt
    have := Nat.mul_le_mul_right (256 ^ bs.length) hb
    simp only [bigEndian, List.length_cons, Nat.pow_succ]
    grind

theorem bigEndian_append (a b : List Byte) : bigEndian (a ++ b) = bigEndian a * 256 ^ b.length + bigEndian b := by
  induction a with
  | nil => simp [bigEndian]
  | cons d ds ih => simp only [List.cons_append, bigEndian, ih, List.length_append, Nat.pow_add]; ring

/-! ## The lookups -/

theorem length_alphabet : alphabet.length = 32 := rfl

/-- 40_base32_codec.md R76 (a). -/
theorem decSym_encSym : ∀ x : Sym, decSym (encSym x) = some x := by decide

/-- 40_base32_codec.md R76 (b). -/
theorem encSym_of_decSym : ∀ (b : Byte) (x : Sym), decSym b = some x → encSym x = upper b := by
  have h : ∀ b : Byte, (decSym b).all fun x => encSym x == upper b := by decide
  intro b x hx
  simpa [hx] using h b

/-- 40_base32_codec.md R76 (c). -/
theorem encSym_strictMono : ∀ x y : Sym, x.toNat < y.toNat → (encSym x).toNat < (encSym y).toNat := by decide

theorem encSym_mem_alphabet : ∀ x : Sym, encSym x ∈ alphabet := by decide

/-- 40_base32_codec.md R73: the bytes that stand for a symbol are the letters and digits but `I`, `L`, `O`, `U` and
`i`, `l`, `o`, `u`. -/
theorem decSym_isSome : ∀ b : Byte, (decSym b).isSome = true ↔
    ((0x30#8 ≤ b ∧ b ≤ 0x39#8) ∨ (0x41#8 ≤ upper b ∧ upper b ≤ 0x5A#8 ∧
      upper b ≠ 0x49#8 ∧ upper b ≠ 0x4C#8 ∧ upper b ≠ 0x4F#8 ∧ upper b ≠ 0x55#8)) := by decide

theorem decSym_upper : ∀ b : Byte, decSym (upper b) = decSym b := by decide

@[simp] theorem normSyms_nil : normSyms [] = [] := rfl

@[simp] theorem normSyms_append (a b : List Byte) : normSyms (a ++ b) = normSyms a ++ normSyms b := by simp [normSyms]

theorem normSyms_cons (b : Byte) (s : List Byte) :
    normSyms (b :: s) = (decSym b).toList ++ normSyms s := by
  cases h : decSym b <;> simp [normSyms, h]

/-- A byte outside the alphabet is dropped (40_base32_codec.md R77). -/
theorem normSyms_cons_of_none {b : Byte} (h : decSym b = none) (s : List Byte) : normSyms (b :: s) = normSyms s := by
  simp [normSyms_cons, h]

theorem normSyms_map_encSym (ds : List Sym) : normSyms (ds.map encSym) = ds := by
  induction ds with
  | nil => rfl
  | cons d ds ih => simp [normSyms_cons, decSym_encSym, ih]

theorem normSyms_map_upper (s : List Byte) : normSyms (s.map upper) = normSyms s := by
  induction s with
  | nil => rfl
  | cons b s ih => simp [normSyms_cons, decSym_upper, ih]

end Sys2Proof.Machine
end

