-- ==== Sys2Proof/Laws/PerInstr.lean ====
section
/-! SUPPORT. The family EncodedFits: the command that presents an operation fits the ports (10_state.md R25). -/

namespace Sys2Proof.Laws.EncodedFits

/-- A well-formed operation's command fits the ports. -/
def Statement (i : Instr) : Prop := i.WellFormed → (encode i).WellFormed

theorem length_inputLanes {s : List Byte} (h : s.length ≤ Config.maxInLen) :
    (inputLanes s).length = Config.maxInLen := by simp [inputLanes]; omega

theorem valueCommand_fits (cmd : Byte) (v : Value) : (valueCommand cmd v).WellFormed :=
  ⟨Nat.pow_pos (by decide), length_inputLanes (Nat.zero_le _)⟩

theorem stringCommand_fits {s : List Byte} (cmd : Byte) (h : s.length ≤ Config.maxInLen) :
    (stringCommand cmd s).WellFormed :=
  ⟨Nat.lt_of_le_of_lt h Config.maxInLen_lt_two_pow_lenW, length_inputLanes h⟩

theorem enc32 (v : Value) : Statement (.enc32 v) := fun _ => valueCommand_fits _ _
theorem dec32 (s : List Byte) : Statement (.dec32 s) := fun h => stringCommand_fits _ h
theorem pack128 (v : Value) : Statement (.pack128 v) := fun _ => valueCommand_fits _ _
theorem unpack128 (b : List Byte) : Statement (.unpack128 b) := fun h => stringCommand_fits _ h
theorem tsx (v : Value) : Statement (.tsx v) := fun _ => valueCommand_fits _ _

end Sys2Proof.Laws.EncodedFits
end

