-- ==== Sys2Proof/Laws/Response.lean ====
section
/-! SUPPORT. The responses, field by field, and that each is one the rules can produce (10_state.md R31, R32). -/

namespace Sys2Proof.Machine

theorem outputLanes_nil : outputLanes [] = List.replicate 26 none := rfl

theorem length_outputLanes (bs : List Byte) (h : bs.length ≤ 26) : (outputLanes bs).length = 26 := by
  simp [outputLanes]; omega

/-- Lane `i` holds byte `i`, and the lanes beyond the string have no value (20_memory.md R42, 10_state.md R33). -/
theorem getD_outputLanes (bs : List Byte) (i : Nat) : (outputLanes bs).getD i none = bs[i]? := by
  rw [List.getD_eq_getElem?_getD, outputLanes]
  rcases Nat.lt_or_ge i bs.length with h | h
  · simp [List.getElem?_append_left, h]
  · rw [List.getElem?_append_right (by simpa using h), List.getElem?_eq_none h]
    rw [List.getElem?_replicate]
    split <;> rfl

@[simp] theorem filterMap_outputLanes (bs : List Byte) : (outputLanes bs).filterMap id = bs := by
  simp [outputLanes, List.filterMap_append, List.filterMap_map]

@[simp] theorem raise_status (e : Status) : (raise e).status = e.code := rfl
@[simp] theorem raise_outVal (e : Status) : (raise e).outVal = none := rfl
@[simp] theorem raise_outTs (e : Status) : (raise e).outTs = none := rfl
@[simp] theorem raise_outLen (e : Status) : (raise e).outLen = none := rfl
@[simp] theorem raise_outBytes (e : Status) : (raise e).outBytes = List.replicate 26 none := rfl

@[simp] theorem okValue_status (v : Value) : (okValue v).status = 0#3 := rfl
@[simp] theorem okValue_outVal (v : Value) : (okValue v).outVal = some v := rfl
@[simp] theorem okValue_outTs (v : Value) : (okValue v).outTs = none := rfl
@[simp] theorem okValue_outLen (v : Value) : (okValue v).outLen = none := rfl
@[simp] theorem okValue_outBytes (v : Value) : (okValue v).outBytes = List.replicate 26 none := rfl

@[simp] theorem okTimestamp_status (ts : Timestamp) : (okTimestamp ts).status = 0#3 := rfl
@[simp] theorem okTimestamp_outVal (ts : Timestamp) : (okTimestamp ts).outVal = none := rfl
@[simp] theorem okTimestamp_outTs (ts : Timestamp) : (okTimestamp ts).outTs = some ts := rfl
@[simp] theorem okTimestamp_outLen (ts : Timestamp) : (okTimestamp ts).outLen = none := rfl
@[simp] theorem okTimestamp_outBytes (ts : Timestamp) : (okTimestamp ts).outBytes = List.replicate 26 none := rfl

@[simp] theorem okBytes_status (bs : List Byte) : (okBytes bs).status = 0#3 := rfl
@[simp] theorem okBytes_outVal (bs : List Byte) : (okBytes bs).outVal = none := rfl
@[simp] theorem okBytes_outTs (bs : List Byte) : (okBytes bs).outTs = none := rfl
@[simp] theorem okBytes_outLen (bs : List Byte) : (okBytes bs).outLen = some (BitVec.ofNat 5 bs.length) := rfl
@[simp] theorem okBytes_outBytes (bs : List Byte) : (okBytes bs).outBytes = outputLanes bs := rfl
@[simp] theorem okBytes_bytes (bs : List Byte) : (okBytes bs).bytes = bs := filterMap_outputLanes bs

theorem raise_noPayload (e : Status) : (raise e).NoPayload := ⟨rfl, rfl, rfl, rfl⟩
theorem okValue_onlyValue (v : Value) : (okValue v).OnlyValue := ⟨rfl, rfl, rfl, rfl⟩
theorem okTimestamp_onlyTimestamp (ts : Timestamp) : (okTimestamp ts).OnlyTimestamp := ⟨rfl, rfl, rfl, rfl⟩

theorem okBytes_onlyBytes (bs : List Byte) (n : Nat) (hn : bs.length = n) (h : n ≤ 26) : (okBytes bs).OnlyBytes n := by
  subst hn
  refine ⟨rfl, rfl, rfl, length_outputLanes bs h, fun i _ => ?_⟩
  simp only [okBytes_outBytes, getD_outputLanes]
  simp

/-! ## The operations' responses -/

theorem enc32Response_eq (v : Value) : enc32Response v =
    okBytes ((digits32 10 (timestampOf v).toNat).map encSym ++ (digits32 16 (randomOf v).toNat).map encSym) := rfl

theorem enc32Response_onlyBytes (v : Value) : (enc32Response v).OnlyBytes 26 :=
  okBytes_onlyBytes _ 26 (by simp) (Nat.le_refl _)

@[simp] theorem length_binaryForm (v : Value) : (binaryForm v).length = 16 := by simp [binaryForm]

theorem pack128Response_onlyBytes (v : Value) : (pack128Response v).OnlyBytes 16 :=
  okBytes_onlyBytes _ 16 (by simp) (by decide)

/-- The three outcomes of DEC32 (40_base32_codec.md R86). -/
theorem dec32Response_cases (s : List Byte) :
    ((normSyms s).length ≠ 26 ∧ dec32Response s = raise .invalidLength) ∨
    ((normSyms s).length = 26 ∧ 2 ^ 48 ≤ radix32 ((normSyms s).take 10) ∧ dec32Response s = raise .invalidTimestamp) ∨
    ((normSyms s).length = 26 ∧ radix32 ((normSyms s).take 10) < 2 ^ 48 ∧
      dec32Response s = okValue (valueOf (BitVec.ofNat 48 (radix32 ((normSyms s).take 10)))
        (BitVec.ofNat 80 (radix32 ((normSyms s).drop 10))))) := by
  unfold dec32Response
  by_cases h : (normSyms s).length = 26
  · by_cases ht : 2 ^ 48 ≤ radix32 ((normSyms s).take 10)
    · exact .inr (.inl ⟨h, ht, by simp only [h, ne_eq, not_true_eq_false, if_false, ht, if_true]⟩)
    · exact .inr (.inr ⟨h, by omega, by simp only [h, ne_eq, not_true_eq_false, if_false, ht]⟩)
  · exact .inl ⟨h, by simp only [ne_eq, h, not_false_eq_true, if_true]⟩

/-- The two outcomes of UNPACK128 (41_binary_codec.md R106, R107). -/
theorem unpack128Response_cases (b : List Byte) :
    (b.length ≠ 16 ∧ unpack128Response b = raise .invalidLength) ∨
    (b.length = 16 ∧ ∃ v, unpack128Response b = okValue v) := by
  unfold unpack128Response
  by_cases h : b.length = 16
  · simp only [h, ne_eq, not_true_eq_false, if_false]
    exact .inr ⟨trivial, _, rfl⟩
  · exact .inl ⟨h, by simp only [ne_eq, h, not_false_eq_true, if_true]⟩

theorem raise_wellFormed {e : Status} (h : e ≠ .ok) : (raise e).WellFormed := by
  refine .inr ⟨?_, raise_noPayload e⟩
  cases e <;> simp_all [Status.code]

/-- Every response of an operation is one that the rules can produce (10_state.md R31, R32). -/
theorem responseOf_wellFormed (i : Instr) : (responseOf i).WellFormed := by
  cases i with
  | enc32 v => exact .inl ⟨rfl, .inl (enc32Response_onlyBytes v)⟩
  | dec32 s =>
    rcases dec32Response_cases s with ⟨_, h⟩ | ⟨_, _, h⟩ | ⟨_, _, h⟩ <;> simp only [responseOf, h]
    · exact raise_wellFormed (by decide)
    · exact raise_wellFormed (by decide)
    · exact .inl ⟨rfl, .inr (.inr (.inl (okValue_onlyValue _)))⟩
  | pack128 v => exact .inl ⟨rfl, .inr (.inl (pack128Response_onlyBytes v))⟩
  | unpack128 b =>
    rcases unpack128Response_cases b with ⟨_, h⟩ | ⟨_, v, h⟩ <;> simp only [responseOf, h]
    · exact raise_wellFormed (by decide)
    · exact .inl ⟨rfl, .inr (.inr (.inl (okValue_onlyValue _)))⟩
  | tsx v => exact .inl ⟨rfl, .inr (.inr (.inr (okTimestamp_onlyTimestamp _)))⟩

end Sys2Proof.Machine
end

