-- ==== Sys2Proof/Laws/State.lean ====
section
/-! SUPPORT. What each update of the state leaves in each field; what each handshake operation can do. -/

namespace Sys2Proof.Machine

/-! ## State updates -/

@[simp] theorem setCodec_codecs (s : State) (k : Nat) (u : Codec) : (s.setCodec k u).codecs = s.codecs.set k u := rfl
@[simp] theorem setCodec_turn (s : State) (k : Nat) (u : Codec) : (s.setCodec k u).turn = s.turn := rfl
@[simp] theorem setCodec_schedule (s : State) (k : Nat) (u : Codec) : (s.setCodec k u).schedule = s.schedule := rfl

@[simp] theorem respond_turn (s : State) (r : Response) : (s.respond r).turn = s.turn := rfl
@[simp] theorem respond_schedule (s : State) (r : Response) : (s.respond r).schedule = s.schedule := rfl
@[simp] theorem respond_codecs (s : State) (r : Response) :
    (s.respond r).codecs = s.codecs.modify s.turn fun u => { u with response := some r } := rfl

@[simp] theorem fetch_codecs (s : State) (k : Nat) (u : Codec) (q : List Command) :
    (s.fetch k u q).codecs = s.codecs.set k { u with queue := q } := rfl
@[simp] theorem fetch_turn (s : State) (k : Nat) (u : Codec) (q : List Command) : (s.fetch k u q).turn = k := rfl
@[simp] theorem fetch_schedule (s : State) (k : Nat) (u : Codec) (q : List Command) :
    (s.fetch k u q).schedule = s.schedule := rfl

/-- Answering writes the fetched instance's queue and response, and nothing else. -/
theorem fetch_respond (s : State) (k : Nat) (u : Codec) (q : List Command) (r : Response) :
    (s.fetch k u q).respond r =
      { s with codecs := s.codecs.set k { u with queue := q, response := some r }, turn := k } := by
  have h : ((s.codecs.set k { u with queue := q }).modify k fun u => { u with response := some r })
      = s.codecs.set k { u with queue := q, response := some r } := by
    refine List.ext_getElem? fun j => ?_
    rcases Nat.lt_or_ge k s.codecs.length with hk | hk
    · by_cases hj : k = j
      · subst hj; simp [List.getElem?_set_self hk]
      · simp [hj, List.getElem?_set_ne hj]
    · rw [List.set_eq_of_length_le hk, List.set_eq_of_length_le hk, List.modify_eq_self hk]
  simp [State.respond, State.fetch, State.setCodec, h]

/-! ## The handshake -/

@[simp] theorem offer_inReset (u : Codec) (c : Command) : (u.offer c).inReset = u.inReset := by
  unfold Codec.offer; split <;> rfl
@[simp] theorem offer_response (u : Codec) (c : Command) : (u.offer c).response = u.response := by
  unfold Codec.offer; split <;> rfl
@[simp] theorem offer_taken (u : Codec) (c : Command) : (u.offer c).taken = u.taken := by
  unfold Codec.offer; split <;> rfl
@[simp] theorem offer_dropped (u : Codec) (c : Command) : (u.offer c).dropped = u.dropped := by
  unfold Codec.offer; split <;> rfl
theorem offer_occupancy (u : Codec) (c : Command) :
    (u.offer c).occupancy = if u.cmdReady then u.occupancy + 1 else u.occupancy := by
  unfold Codec.offer Codec.occupancy
  split
  · simp only [List.length_append, List.length_singleton]; omega
  · rfl
theorem offer_unaccepted (u : Codec) (c : Command) :
    (u.offer c).unaccepted = if u.cmdReady then u.unaccepted.erase c else u.unaccepted.insert c := by
  unfold Codec.offer; split <;> rfl
/-- Whatever an offer adds to the host's record is the command presented. -/
theorem mem_offer_unaccepted {u : Codec} {c d : Command} (h : d ∈ (u.offer c).unaccepted) : d = c ∨ d ∈ u.unaccepted := by
  rw [offer_unaccepted] at h
  split at h
  · exact .inr (List.mem_of_mem_erase h)
  · exact List.mem_insert_iff.1 h
theorem offer_queue (u : Codec) (c : Command) :
    (u.offer c).queue = if u.cmdReady then u.queue ++ [c] else u.queue := by
  unfold Codec.offer; split <;> rfl

@[simp] theorem assertReset_inReset (u : Codec) : u.assertReset.inReset = true := rfl
@[simp] theorem assertReset_queue (u : Codec) : u.assertReset.queue = [] := rfl
@[simp] theorem assertReset_response (u : Codec) : u.assertReset.response = none := rfl
@[simp] theorem assertReset_taken (u : Codec) : u.assertReset.taken = u.taken := rfl
@[simp] theorem assertReset_dropped (u : Codec) : u.assertReset.dropped = u.dropped + u.occupancy := rfl
@[simp] theorem assertReset_occupancy (u : Codec) : u.assertReset.occupancy = 0 := rfl
@[simp] theorem assertReset_unaccepted (u : Codec) : u.assertReset.unaccepted = u.unaccepted := rfl

@[simp] theorem releaseReset_inReset (u : Codec) : u.releaseReset.inReset = false := rfl
@[simp] theorem releaseReset_queue (u : Codec) : u.releaseReset.queue = u.queue := rfl
@[simp] theorem releaseReset_response (u : Codec) : u.releaseReset.response = u.response := rfl
@[simp] theorem releaseReset_taken (u : Codec) : u.releaseReset.taken = u.taken := rfl
@[simp] theorem releaseReset_dropped (u : Codec) : u.releaseReset.dropped = u.dropped := rfl
@[simp] theorem releaseReset_occupancy (u : Codec) : u.releaseReset.occupancy = u.occupancy := rfl
@[simp] theorem releaseReset_unaccepted (u : Codec) : u.releaseReset.unaccepted = u.unaccepted := rfl

@[simp] theorem placeCommand_inReset (u : Codec) (c : Command) : (u.placeCommand c).inReset = false := rfl
@[simp] theorem placeCommand_queue (u : Codec) (c : Command) : (u.placeCommand c).queue = c :: u.queue.tail := rfl
@[simp] theorem placeCommand_response (u : Codec) (c : Command) : (u.placeCommand c).response = none := rfl
@[simp] theorem placeCommand_taken (u : Codec) (c : Command) : (u.placeCommand c).taken = u.taken := rfl
@[simp] theorem placeCommand_dropped (u : Codec) (c : Command) : (u.placeCommand c).dropped = u.dropped := rfl
@[simp] theorem placeCommand_unaccepted (u : Codec) (c : Command) : (u.placeCommand c).unaccepted = u.unaccepted := rfl

@[simp] theorem take_dropped (u : Codec) : u.take.dropped = u.dropped := by
  unfold Codec.take; split <;> rfl
@[simp] theorem take_unaccepted (u : Codec) : u.take.unaccepted = u.unaccepted := by
  unfold Codec.take; split <;> rfl

/-- What `rsp_ready` does: it takes the waiting response of an instance that is not in reset, or nothing. -/
theorem take_cases (u : Codec) :
    (∃ r, u.inReset = false ∧ u.response = some r ∧
      u.take = { u with response := none, taken := u.taken ++ [r] }) ∨
    ((u.inReset = true ∨ u.response = none) ∧ u.take = u) := by
  unfold Codec.take
  split
  · exact .inl ⟨_, ‹_›, ‹_›, rfl⟩
  · rename_i h
    refine .inr ⟨?_, rfl⟩
    rcases hr : u.inReset with _ | _
    · rcases hq : u.response with _ | r
      · exact .inr rfl
      · exact absurd hq (h r hr)
    · exact .inl rfl

theorem cmdReady_iff (u : Codec) :
    u.cmdReady = true ↔ u.inReset = false ∧ u.occupancy < Config.maxOutstanding := by
  simp [Codec.cmdReady]

theorem canAnswer_iff (u : Codec) :
    u.canAnswer = true ↔ u.inReset = false ∧ u.response = none ∧ u.queue ≠ [] := by
  simp [Codec.canAnswer, and_assoc]

/-- An idle instance is ready. -/
theorem cmdReady_of_idle {u : Codec} (hr : u.inReset = false) (hq : u.queue = []) (hp : u.response = none) :
    u.cmdReady = true :=
  (cmdReady_iff u).2 ⟨hr, by
    simp only [Codec.occupancy, hq, hp]
    exact Config.one_le_maxOutstanding⟩

/-! ## Leaving out moves -/

/-- Leaving out moves leaves no new ones. -/
theorem skipMoves_sublist (k n : Nat) (ms : List (Nat × Move)) : (skipMoves k n ms).Sublist ms := by
  induction ms generalizing n with
  | nil => simp [skipMoves]
  | cons m ms ih =>
    cases n with
    | zero => exact List.Sublist.refl _
    | succ n =>
      simp only [skipMoves]
      split
      · exact (ih n).cons m
      · exact (ih (n + 1)).cons_cons m

@[simp] theorem skipMoves_zero (k : Nat) (ms : List (Nat × Move)) : skipMoves k 0 ms = ms := by
  cases ms <;> rfl

/-- Leaving out moves at one instance commutes with leaving out moves at another. -/
theorem skipMoves_comm {j k : Nat} (h : j ≠ k) (m n : Nat) (ms : List (Nat × Move)) :
    skipMoves j m (skipMoves k n ms) = skipMoves k n (skipMoves j m ms) := by
  induction ms generalizing m n with
  | nil => simp [skipMoves]
  | cons x ms ih =>
    cases m with
    | zero => simp
    | succ m =>
      cases n with
      | zero => simp
      | succ n =>
        by_cases hj : x.1 = j
        · have hk : x.1 ≠ k := fun hk => h (hj.symm.trans hk)
          simp [skipMoves, hj, h, ih]
        · by_cases hk : x.1 = k
          · simp [skipMoves, hk, h.symm, ih]
          · simp [skipMoves, hj, hk, ih]

end Sys2Proof.Machine
end

