-- ==== Sys2Proof/Laws/Step.lean ====
section
/-! SUPPORT. What exec, an answer, one move and one step can do, each said once. -/

namespace Sys2Proof.Machine

/-- Every operation completes, and writes its response (10_state.md R34). -/
theorem exec_eq (i : Instr) (s : State) : exec i s = .next (s.respond (responseOf i)) := by
  cases i <;> rfl

/-- The decoder's answer says which response a command gets (60_exceptions.md R126). -/
theorem commandResponse_of_decode {c : Command} {i : Instr} (h : decode c = .ok i) :
    commandResponse c = responseOf i := by simp [commandResponse, h]

theorem commandResponse_wellFormed (c : Command) : (commandResponse c).WellFormed := by
  unfold commandResponse
  split
  · exact raise_wellFormed (by decide)
  · exact responseOf_wellFormed _

theorem runCommand_eq (c : Command) (s : State) : runCommand c s = .next (s.respond (commandResponse c)) := by
  unfold runCommand commandResponse
  split <;> simp [exec_eq]

/-- An instance that can answer does, with the response of its oldest command. -/
theorem answer_ready {k : Nat} {u : Codec} {s : State} {c : Command} {q : List Command}
    (hr : u.inReset = false) (hp : u.response = none) (hq : u.queue = c :: q) :
    answer k u s = .next { s with
      codecs := s.codecs.set k { u with queue := q, response := some (commandResponse c) }, turn := k } := by
  have hc : u.canAnswer = true := (canAnswer_iff u).2 ⟨hr, hp, by simp [hq]⟩
  simp only [answer, hc, hq, runCommand_eq, fetch_respond]

/-- An instance that cannot answer does nothing. -/
theorem answer_blocked {k : Nat} {u : Codec} {s : State} (h : u.canAnswer = false) : answer k u s = .next s := by
  simp [answer, h]

/-- What an answer can do. -/
theorem answer_cases (k : Nat) (u : Codec) (s : State) :
    (u.canAnswer = false ∧ answer k u s = .next s) ∨
    ∃ c q, u.inReset = false ∧ u.response = none ∧ u.queue = c :: q ∧
      answer k u s = .next { s with
        codecs := s.codecs.set k { u with queue := q, response := some (commandResponse c) }, turn := k } := by
  cases h : u.canAnswer with
  | false => exact .inl ⟨rfl, answer_blocked h⟩
  | true =>
    obtain ⟨hr, hp, hq⟩ := (canAnswer_iff u).1 h
    obtain ⟨c, q, hcq⟩ := List.exists_cons_of_ne_nil hq
    exact .inr ⟨c, q, hr, hp, hcq, answer_ready hr hp hcq⟩

/-- What one move at an existing instance can do, if the machine goes on. -/
theorem act_cases {k : Nat} {m : Move} {s t : State} (h : act k m s = .next t) :
    ∃ u, s.codecs[k]? = some u ∧
      ((∃ c, m = .offer c ∧ t = s.setCodec k (u.offer c)) ∨
      (m = .answer ∧ u.canAnswer = false ∧ t = s) ∨
      (m = .answer ∧ ∃ c q, u.inReset = false ∧ u.response = none ∧ u.queue = c :: q ∧
        t = { s with
          codecs := s.codecs.set k { u with queue := q, response := some (commandResponse c) }, turn := k }) ∨
      (m = .take ∧ t = s.setCodec k u.take) ∨
      (m = .assertReset ∧ t = s.setCodec k u.assertReset) ∨
      (m = .releaseReset ∧ t = s.setCodec k u.releaseReset) ∨
      (∃ f r, m = .read f ∧ u.lastTaken = some r ∧ r.defines f = true ∧ t = s) ∨
      (∃ cmd v, m = .forward cmd ∧ u.lastTaken.bind Response.outVal = some v ∧
        t = s.setCodec k (u.offer (valueCommand cmd v))) ∨
      (∃ n r st, m = .branchOk n ∧ u.lastTaken = some r ∧ Status.ofCode r.status = some st ∧
        t = if st = .ok then s else { s with schedule := skipMoves k n s.schedule })) := by
  unfold act actOn at h
  split at h
  · cases h
  · rename_i u hu
    refine ⟨u, hu, ?_⟩
    cases m with
    | offer c => cases h; exact .inl ⟨c, rfl, rfl⟩
    | answer =>
      rcases answer_cases k u s with ⟨hc, ha⟩ | ⟨c, q, hr, hp, hq, ha⟩ <;> simp only [ha] at h <;> cases h
      · exact .inr (.inl ⟨rfl, hc, rfl⟩)
      · exact .inr (.inr (.inl ⟨rfl, c, q, hr, hp, hq, rfl⟩))
    | take => cases h; simp
    | assertReset => cases h; simp
    | releaseReset => cases h; simp
    | read f =>
      simp only [State.readField] at h
      split at h
      · cases h
      · split at h
        · cases h; simp_all
        · cases h
    | forward cmd =>
      simp only [State.forward] at h
      split at h
      · cases h
      · cases h; simp_all
    | branchOk n =>
      simp only [State.branchOk] at h
      split at h
      · cases h
      · split at h
        · cases h
        · cases h; simp_all
        · rename_i st hne hst
          cases h
          have hne' : st ≠ .ok := hne
          simp_all

/-- What one step can do, if the machine goes on: the next scheduled move, or the answer of the lowest-numbered instance
that can answer, or nothing. -/
theorem step_cases {s t : State} (h : step s = .next t) :
    (∃ k m rest, s.schedule = (k, m) :: rest ∧ act k m { s with schedule := rest } = .next t) ∨
    (s.schedule = [] ∧ s.firstReady = none ∧ t = s) ∨
    (∃ k, s.schedule = [] ∧ s.firstReady = some k ∧ act k .answer s = .next t) := by
  unfold step idle at h
  split at h
  · split at h
    · cases h; exact .inr (.inl ⟨‹_›, ‹_›, rfl⟩)
    · exact .inr (.inr ⟨_, ‹_›, ‹_›, h⟩)
  · exact .inl ⟨_, _, _, ‹_›, h⟩

/-- A scheduled move is made with the rest of the schedule still to come. -/
theorem step_scheduled {s : State} {k : Nat} {m : Move} {rest : List (Nat × Move)} (h : s.schedule = (k, m) :: rest) :
    step s = act k m { s with schedule := rest } := by simp [step, h]

/-- A move at an existing instance. -/
theorem act_of_some {k : Nat} {u : Codec} {s : State} (m : Move) (h : s.codecs[k]? = some u) :
    act k m s = actOn k u m s := by simp only [act, h]

/-- A scheduled move at an existing instance. -/
theorem step_at {s : State} {k : Nat} {m : Move} {rest : List (Nat × Move)} {u : Codec}
    (hs : s.schedule = (k, m) :: rest) (hu : s.codecs[k]? = some u) :
    step s = actOn k u m { s with schedule := rest } := by
  rw [step_scheduled hs, act_of_some (s := { s with schedule := rest }) m hu]

/-- A scheduled answer of an instance that can answer. -/
theorem step_answer {s : State} {k : Nat} {rest : List (Nat × Move)} {u : Codec} {c : Command} {q : List Command}
    (hs : s.schedule = (k, .answer) :: rest) (hu : s.codecs[k]? = some u)
    (hr : u.inReset = false) (hp : u.response = none) (hq : u.queue = c :: q) :
    step s = .next { codecs := s.codecs.set k { u with queue := q, response := some (commandResponse c) },
                     turn := k, schedule := rest } := by
  rw [step_at hs hu]
  exact answer_ready hr hp hq

theorem reaches_zero (s : State) : s.Reaches 0 s := rfl

theorem reaches_succ {s s' t : State} {n : Nat} (h : step s = .next s') (ht : s'.Reaches n t) : s.Reaches (n + 1) t :=
  ⟨s', h, ht⟩

/-- Runs one after another. -/
theorem reaches_add {s s' t : State} {m n : Nat} (h : s.Reaches m s') (ht : s'.Reaches n t) : s.Reaches (m + n) t := by
  induction m generalizing s with
  | zero => cases h; simpa using ht
  | succ m ih =>
    obtain ⟨a, ha, hr⟩ := h
    rw [Nat.succ_add]
    exact ⟨a, ha, ih hr⟩

/-- Instance `k` after instance `j` has changed. -/
theorem getElem?_set_codec {cs : List Codec} {j k : Nat} {u w : Codec} (hu : cs[k]? = some u) :
    (cs.set j w)[k]? = if j = k then some w else some u := by
  split
  · rename_i h
    subst h
    obtain ⟨hk, -⟩ := List.getElem?_eq_some_iff.1 hu
    simp [hk]
  · rename_i h
    rw [List.getElem?_set_ne h, hu]

end Sys2Proof.Machine
end

