-- ==== Sys2Proof/Tests/Slice0.lean ====
section
/-! SUPPORT. The model's own tests: ill-formed terms the checks refuse, words written out from the spec's encodings, the
spec's own vectors (95_test_vectors.md), and for every statement with hypotheses a state and operands that meet them. -/

namespace Sys2Proof.Tests

open Sys2Proof Sys2Proof.Machine

/-! ## The checks refuse ill-formed terms -/

theorem test_command_refuses_wide_length :
    ¬ (⟨0x01#8, 0#128, 2 ^ Config.lenW, inputLanes []⟩ : Command).WellFormed :=
  fun h => Nat.lt_irrefl _ h.1

theorem test_command_refuses_missing_lanes : ¬ (⟨0x01#8, 0#128, 0, []⟩ : Command).WellFormed :=
  fun h => absurd h.2 (by decide)

theorem test_instr_refuses_long_dec32 : ¬ (Instr.dec32 (List.replicate (Config.maxInLen + 1) 0x30#8)).WellFormed := by
  simp [Instr.WellFormed]

theorem test_instr_refuses_long_unpack128 : ¬ (Instr.unpack128 (List.replicate (Config.maxInLen + 1) 0#8)).WellFormed := by
  simp [Instr.WellFormed]

theorem test_form_refuses_33_digits :
    ¬ (Form.enc32 (List.replicate 33 0#4)).WellFormed ∧ ¬ (Form.pack128 (List.replicate 33 0#4)).WellFormed ∧
    ¬ (Form.tsx (List.replicate 33 0#4)).WellFormed := by decide

theorem test_form_refuses_long_text : ¬ (Form.dec32Text (String.ofList (List.replicate (Config.maxInLen + 1) '0'))).WellFormed := by
  simp [Form.WellFormed]

theorem test_form_refuses_text_outside_ascii : ¬ (Form.dec32Text "ſ").WellFormed :=
  fun h => absurd (h.2 'ſ' (by decide)) (by decide)

theorem test_form_refuses_long_bytes :
    ¬ (Form.dec32Bytes (List.replicate (Config.maxInLen + 1) 0#8)).WellFormed ∧
    ¬ (Form.unpack128Bytes (List.replicate (Config.maxInLen + 1) 0#8)).WellFormed := by
  simp [Form.WellFormed]

theorem test_form_refuses_ill_formed_raw : ¬ (Form.raw ⟨0x01#8, 0#128, 0, []⟩).WellFormed :=
  test_command_refuses_missing_lanes

/-! ## Words written out from 30_encoding.md R55, R56, and opcode_table.json -/

theorem test_decode_enc32 : decodeTableWord 8 0b00000_001 = some (.enc32 0#128) := by decide
theorem test_decode_dec32 : decodeTableWord 8 0b00000_010 = some (.dec32 []) := by decide
theorem test_decode_pack128 : decodeTableWord 8 0b00000_011 = some (.pack128 0#128) := by decide
theorem test_decode_unpack128 : decodeTableWord 8 0b00000_100 = some (.unpack128 []) := by decide
theorem test_decode_tsx : decodeTableWord 8 0b00000_101 = some (.tsx 0#128) := by decide

/-- 95_test_vectors.md K1 to K6: rejected, each by its name. -/
theorem test_decode_illegal :
    [0x00, 0x06, 0x07, 0x09, 0x81, 0xFF].map (fun w => decode (commandOfWord w)) =
      [.error .unassignedCode, .error .unassignedCode, .error .unassignedCode,
       .error .reservedBits, .error .reservedBits, .error .reservedBits] := by decide

/-- The string operand is the first `in_len` lanes (10_state.md R27). -/
theorem test_decode_operand_lanes :
    decode ⟨0x02#8, 5#128, 2, [0x41#8, 0x42#8, 0x43#8]⟩ = .ok (.dec32 [0x41#8, 0x42#8]) := by decide

/-! ## The spec's vectors -/

/-- `V` of 95_test_vectors.md. -/
def vectorV : Value := 0x0158FE351E17318477FECDBC6F641ED4#128

/-- L1 to L4. -/
theorem test_encSym : [0#5, 17#5, 18#5, 31#5].map encSym = [0x30#8, 0x48#8, 0x4A#8, 0x5A#8] := by decide

/-- L5 to L10. -/
theorem test_decSym :
    [0x6D#8, 0x4F#8, 0x69#8, 0x55#8, 0x2D#8, 0xC5#8, 0xBF#8].map decSym =
      [some 20#5, none, none, none, none, none, none] := by decide

/-- 40_base32_codec.md R71: the alphabet's bytes are the ASCII codes of its characters. -/
theorem test_alphabet : alphabet = asciiBytes "0123456789ABCDEFGHJKMNPQRSTVWXYZ" := by decide

/-- 40_base32_codec.md R73: the reverse table in full, over all 256 bytes. -/
theorem test_decSym_table :
    (List.range 256).map (fun n => (decSym (BitVec.ofNat 8 n)).map BitVec.toNat) =
      List.replicate 0x30 none ++ (List.range' 0 10).map some ++ List.replicate 7 none ++
      ((List.range' 10 8).map some ++ [none] ++ (List.range' 18 2).map some ++ [none] ++
        (List.range' 20 2).map some ++ [none] ++ (List.range' 22 5).map some ++ [none] ++
        (List.range' 27 5).map some) ++ List.replicate 6 none ++
      ((List.range' 10 8).map some ++ [none] ++ (List.range' 18 2).map some ++ [none] ++
        (List.range' 20 2).map some ++ [none] ++ (List.range' 22 5).map some ++ [none] ++
        (List.range' 27 5).map some) ++ List.replicate 133 none := by decide +kernel

/-- L11. -/
theorem test_normSyms : normSyms (asciiBytes "0I1L2U3") = [0#5, 1#5, 2#5, 3#5] := by decide

/-- E10: mixed bits. -/
theorem test_enc32_mixed :
    (enc32Response 0x0123456789ABCDEF0123456789ABCDEF#128).bytes = asciiBytes "014D2PF2DBSQQG28T5CY4TQKFF" := by decide

/-- E8: the top bit. -/
theorem test_enc32_top_bit :
    (enc32Response 0x80000000000000000000000000000000#128).bytes = asciiBytes "40000000000000000000000000" := by decide

/-- D3: separators. -/
theorem test_dec32_separators :
    (dec32Response (asciiBytes "01B3Z3A7GQ-6627-FZPD-QHQP-87PM")).outVal = some vectorV := by decide

/-- D14: `I`, `L` and `U` are dropped. -/
theorem test_dec32_excluded_letters :
    (dec32Response (asciiBytes "0I1L2U30000000000000000000000")).outVal
      = some 0x0110C000000000000000000000000000#128 := by decide

/-- B4: the timestamp fills exactly bytes 0 to 5. -/
theorem test_pack128_timestamp_bytes :
    (pack128Response 0xFFFFFFFFFFFF00000000000000000000#128).bytes =
      List.replicate 6 0xFF#8 ++ List.replicate 10 0x00#8 := by decide

/-- B5: the lowest bit is in byte 15. -/
theorem test_pack128_lowest_bit :
    (pack128Response 1#128).bytes = List.replicate 15 0x00#8 ++ [0x01#8] := by decide

/-- U2 and U3: 15 and 17 bytes. -/
theorem test_unpack128_lengths :
    (unpack128Response (List.replicate 15 0#8)).status = 1#3 ∧
    (unpack128Response (List.replicate 17 0#8)).status = 1#3 := by decide

/-- U5. -/
theorem test_unpack128_largest :
    (unpack128Response (List.replicate 16 0xFF#8)).outVal = some (BitVec.allOnes 128) := by decide

/-- T3: the random part never leaks. -/
theorem test_tsx_random_part : (tsxResponse 0x000000000000FFFFFFFFFFFFFFFFFFFF#128).outTs = some 0#48 := by decide

/-- T4. -/
theorem test_tsx_timestamp :
    (tsxResponse 0x015901FC229B00000000000000003039#128).outTs = some 0x015901FC229B#48 := by decide

/-- V3, V5 and an error, as responses are written (30_encoding.md R63). -/
theorem test_written :
    (tsxResponse vectorV).written = "-> OK out_ts=0x0158FE351E17" ∧
    (okValue vectorV).written = "-> OK out_val=0x0158FE351E17318477FECDBC6F641ED4" ∧
    (raise .invalidLength).written = "-> INVALID_LENGTH" := by decide

/-- A written value with fewer than 32 digits is zero-extended (30_encoding.md R63). -/
theorem test_hexValue : hexValue [0x1#4, 0xF#4] = 0x1F#128 := by decide

/-! ## Steps -/

/-- One instance. -/
def machine (u : Codec) (schedule : List (Nat × Move)) : State := { codecs := [u], turn := 0, schedule := schedule }

/-- An instance with `c` accepted. -/
def accepted (c : Command) : Codec := { Codec.atReset with queue := [c] }

/-- An instance whose host has taken `r`. -/
def afterTaking (r : Response) : Codec := { Codec.atReset with taken := [r] }

/-- Instance 0 after one step, if the step went on. -/
def afterStep (s : State) : Option Codec :=
  match step s with
  | .next t => t.codecs[0]?
  | _ => none

/-- Each table word runs as the first command after reset: ENC32, DEC32 and UNPACK128 of the empty string, PACK128, TSX. -/
theorem test_first_command_after_reset :
    [0x01, 0x02, 0x03, 0x04, 0x05, 0x06].map (fun w =>
      ((afterStep (State.reset.withFetchWord 8 w)).bind Codec.response).map Response.status) =
      [some 0#3, some 1#3, some 0#3, some 1#3, some 0#3, some 3#3] := by decide

/-- A command is accepted when ready and not in reset (70_reset_and_hazards.md R145, R149). -/
theorem test_offer :
    (afterStep (machine Codec.atReset [(0, .offer (commandOfWord 5))])).map (·.queue.length) = some 1 ∧
    (afterStep (machine Codec.atReset.assertReset [(0, .offer (commandOfWord 5))])).map (·.queue.length) = some 0 := by
  decide

/-- A command presented during reset is not accepted and still stands; presented again after reset it is accepted
(70_reset_and_hazards.md R145, R153 (a)). -/
theorem test_present_again :
    (afterStep (machine Codec.atReset.assertReset [(0, .offer (commandOfWord 5))])).map (·.unaccepted)
      = some [commandOfWord 5] ∧
    (afterStep (machine { Codec.atReset with unaccepted := [⟨5#8, 7#128, 0, []⟩] } [(0, .offer ⟨5#8, 7#128, 0, []⟩)])).map
      (fun u => (u.queue, u.unaccepted)) = some ([⟨5#8, 7#128, 0, []⟩], []) := ⟨rfl, by decide⟩

/-- A run in which a presented command was not accepted has not ended (70_reset_and_hazards.md R155). -/
theorem test_unaccepted_is_not_finished : ¬ (machine { Codec.atReset with unaccepted := [commandOfWord 5] } []).Finished :=
  fun h => absurd (h.2 _ (List.mem_singleton.2 rfl)).1 (by decide)

/-- A run in which a reset dropped an accepted command has not ended (70_reset_and_hazards.md R146, R155). -/
theorem test_dropped_is_not_finished : (accepted (commandOfWord 5)).assertReset.dropped = 1 ∧
    ¬ (machine (accepted (commandOfWord 5)).assertReset []).Finished :=
  ⟨rfl, fun h => absurd (h.2 _ (List.mem_singleton.2 rfl)).2.2.2 (by decide)⟩

/-- The next command is not answered while a response waits (70_reset_and_hazards.md R150). -/
theorem test_answer_waits :
    (afterStep (machine { accepted (commandOfWord 5) with response := some (tsxResponse 7#128) } [(0, .answer)])).map
      (·.response) = some (some (tsxResponse 7#128)) := by decide

/-- With no move scheduled an instance that can answer does. -/
theorem test_idle_answers :
    (afterStep (machine (accepted (commandOfWord 0xFF)) [])).map (·.response) = some (some (raise .illegalCommand)) := by
  decide

/-- `out_val` passes into the next command (30_encoding.md R64). -/
theorem test_forward :
    (afterStep (machine (afterTaking (okValue vectorV)) [(0, .forward 0x05#8)])).map (·.queue.map Command.inVal)
      = some [vectorV] := by decide

/-- The host leaves out its next moves after an error (30_encoding.md R61). -/
theorem test_branch :
    skipMoves 0 2 [(0, .forward 0x03#8), (1, .take), (0, .answer), (0, .take)] = [(1, .take), (0, .take)] := by decide

/-! ## Witnesses: for every statement with hypotheses, a state and operands that meet them -/

/-- A DEC32 string whose first symbol is 8: the least that overflows. -/
def wideString : List Byte := asciiBytes "80000000000000000000000000"

/-- The largest string DEC32 accepts: its first symbol is 7. -/
def largestString : List Byte := asciiBytes "7ZZZZZZZZZZZZZZZZZZZZZZZZZ"

/-- The longest operand string. -/
def longestString : List Byte := List.replicate Config.maxInLen 0x30#8

/-- A command whose `in_len` is one over the capacity. -/
def overlong (cmd : Byte) : Command := ⟨cmd, 0#128, Config.maxInLen + 1, inputLanes []⟩

/-- A command that carries the first bytes of a string. -/
def carrying (cmd : Byte) (str : List Byte) : Command := stringCommand cmd str

theorem fits (str : List Byte) (h : str.length ≤ 27) : str.length ≤ Config.maxInLen :=
  Nat.le_trans h Config.twentySeven_le_maxInLen

theorem carrying_wellFormed (cmd : Byte) (str : List Byte) (h : str.length ≤ 27) : (carrying cmd str).WellFormed :=
  Laws.EncodedFits.stringCommand_fits cmd (fits str h)

theorem witness_AssignedBytesDecodeToTheirOperations :
    Config.maxInLen ≤ Config.maxInLen ∧ 0 ≤ Config.maxInLen ∧
    decode (commandOfWord 1) = .ok (.enc32 0#128) ∧ decode (commandOfWord 5) = .ok (.tsx 0#128) :=
  ⟨Nat.le_refl _, Nat.zero_le _, rfl, rfl⟩

theorem witness_DecodeIsTotalOverAllCommandBytes :
    [0x00, 0x01, 0x02, 0x03, 0x04, 0x05, 0x06, 0x07, 0x08, 0xFF].all fun w =>
      decide ((commandOfWord w).inLen ≤ Config.maxInLen) := by decide

theorem witness_DecodeOfEncodeIsTheOperation :
    (Instr.enc32 vectorV).WellFormed ∧ (Instr.dec32 longestString).WellFormed ∧ (Instr.dec32 []).WellFormed ∧
    (Instr.pack128 vectorV).WellFormed ∧ (Instr.unpack128 longestString).WellFormed ∧ (Instr.tsx vectorV).WellFormed := by
  simp [Instr.WellFormed, longestString]

theorem witness_EncodeOfDecodeAgreesOnTheReadFields :
    ((commandOfWord 1).WellFormed ∧ decode (commandOfWord 1) = .ok (.enc32 0#128)) ∧
    ((carrying 0x02#8 [0x41#8]).WellFormed ∧ decode (carrying 0x02#8 [0x41#8]) = .ok (.dec32 [0x41#8])) :=
  ⟨⟨Laws.EncodedFits.valueCommand_fits 1#8 0#128, rfl⟩, carrying_wellFormed _ _ (by decide), rfl⟩

theorem witness_WrittenFormsDecodeToTheirOperations :
    (List.replicate 32 0xF#4).length ≤ 32 ∧ longestString.length ≤ Config.maxInLen ∧
    (("0Z".toList.length ≤ Config.maxInLen) ∧ ∀ ch ∈ "0Z".toList, ch.toNat < 128) :=
  ⟨by decide, by simp [longestString], Nat.le_trans (by decide) Config.twentySeven_le_maxInLen,
   by simp⟩

theorem witness_Enc32FollowsItsRule :
    (commandOfWord 0x01).cmd = 0x01#8 ∧ (commandOfWord 0x01).inLen ≤ Config.maxInLen := by decide

theorem witness_Dec32FollowsItsRule :
    ((commandOfWord 0x02).cmd = 0x02#8 ∧ (commandOfWord 0x02).inLen ≤ Config.maxInLen) ∧
    ((overlong 0x02#8).cmd = 0x02#8 ∧ Config.maxInLen < (overlong 0x02#8).inLen) ∧
    (∀ b ∈ asciiBytes "----", decSym b = none) ∧ decSym 0x4F#8 = none ∧
    ((asciiBytes "O1B3Z3A7GQ6627FZPDQHQP87PM").length = 26 ∧
      ∃ b ∈ asciiBytes "O1B3Z3A7GQ6627FZPDQHQP87PM", decSym b = none) :=
  ⟨by decide, ⟨rfl, Nat.lt_succ_self _⟩, by decide, by decide, by decide, 0x4F#8, by decide, by decide⟩

theorem witness_Pack128FollowsItsRule :
    (commandOfWord 0x03).cmd = 0x03#8 ∧ (commandOfWord 0x03).inLen ≤ Config.maxInLen := by decide

theorem witness_Unpack128FollowsItsRule :
    ((commandOfWord 0x04).cmd = 0x04#8 ∧ (commandOfWord 0x04).inLen ≤ Config.maxInLen) ∧
    ((overlong 0x04#8).cmd = 0x04#8 ∧ Config.maxInLen < (overlong 0x04#8).inLen) ∧
    (∃ c d : Command, c ≠ d ∧ c.cmd = 0x04#8 ∧ d.cmd = 0x04#8 ∧ c.inLen = 16 ∧ d.inLen = 16 ∧
      c.inBytes.take 16 = d.inBytes.take 16) :=
  ⟨by decide, ⟨rfl, Nat.lt_succ_self _⟩, ⟨4#8, 0#128, 16, List.replicate 27 1#8⟩,
    ⟨4#8, 1#128, 16, List.replicate 16 1#8⟩, by decide, by decide⟩

theorem witness_TsxFollowsItsRule :
    (commandOfWord 0x05).cmd = 0x05#8 ∧ (commandOfWord 0x05).inLen ≤ Config.maxInLen := by decide

/-- E9: neighbouring timestamps with the random parts reversed. -/
theorem witness_CanonicalStringsSortAsValues :
    (0x0158FE351E17FFFFFFFFFFFFFFFFFFFF#128).toNat < (0x0158FE351E1800000000000000000000#128).toNat ∧
    (timestampOf 0x0158FE351E17FFFFFFFFFFFFFFFFFFFF#128).toNat
      < (timestampOf 0x0158FE351E1800000000000000000000#128).toNat := by decide

theorem witness_BinaryFormsSortAsValues : (0#128).toNat < (1#128).toNat := by decide

theorem witness_EquallyNormalizedStringsDecodeAlike :
    (asciiBytes "a-b" ≠ asciiBytes "AB" ∧ normSyms (asciiBytes "a-b") = normSyms (asciiBytes "AB")) ∧
    decSym 0x2D#8 = none := by decide

theorem witness_Dec32RejectsExactlyTheWrongLengths :
    (machine Codec.atReset []).codecs[(machine Codec.atReset []).turn]? = some Codec.atReset ∧
    (normSyms (asciiBytes "8000000000000000000000000")).length = 25 ∧ (normSyms wideString).length = 26 := by decide

theorem witness_Dec32RejectsExactlyTheWideTimestamps :
    normSyms wideString = 8#5 :: List.replicate 25 0#5 ∧ (List.replicate 25 0#5).length = 25 ∧
    normSyms largestString = 7#5 :: List.replicate 25 31#5 ∧ (List.replicate 25 31#5).length = 25 ∧
    (machine Codec.atReset []).codecs[(machine Codec.atReset []).turn]? = some Codec.atReset := by decide

theorem witness_RandomHalfNeverOverflows :
    (List.replicate 16 31#5).length = 16 ∧ (normSyms largestString).length = 26 := by decide

theorem witness_Dec32CompletesWithTheWholeRadixValue :
    normSyms largestString = 7#5 :: List.replicate 25 31#5 ∧ (List.replicate 25 31#5).length = 25 ∧ (7#5).toNat < 8 := by
  decide

theorem witness_Dec32OfEnc32IsTheValue :
    ∃ c d : Command, c.cmd = 0x01#8 ∧ c.inLen ≤ Config.maxInLen ∧ d.cmd = 0x02#8 ∧ d.inLen = 26 ∧
      d.inBytes.take 26 = (commandResponse c).bytes :=
  ⟨commandOfWord 1, carrying 0x02#8 (List.replicate 26 0x30#8), by decide, by decide, rfl, rfl, by decide⟩

theorem witness_Enc32OfDec32IsTheNormalizedString :
    (dec32Response largestString).status = 0#3 ∧ (dec32Response largestString).outVal = some (BitVec.allOnes 128) ∧
    normSyms (asciiBytes "7z-u") = normSyms (asciiBytes "7Z") := by
  decide

theorem witness_Unpack128RejectsExactlyTheWrongLengths :
    (carrying 0x04#8 (List.replicate 16 0#8)).WellFormed ∧ (carrying 0x04#8 (List.replicate 15 0#8)).WellFormed ∧
    (carrying 0x04#8 (List.replicate 16 0#8)).cmd = 0x04#8 ∧
    (carrying 0x04#8 (List.replicate 16 0#8)).inLen ≤ Config.maxInLen :=
  ⟨carrying_wellFormed _ _ (by decide), carrying_wellFormed _ _ (by decide), rfl, fits (List.replicate 16 0#8) (by decide)⟩

theorem witness_BinaryCodecRoundTrips : (List.replicate 16 0xA5#8).length = 16 := by decide

theorem witness_SerialFormsAgree :
    (List.replicate 16 0xA5#8).length = 16 ∧ (dec32Response largestString).status = 0#3 ∧
    (dec32Response largestString).outVal = some (BitVec.allOnes 128) := by decide

theorem witness_OperationsWriteOnlyTheResponse :
    ∃ t, exec (.tsx vectorV) (machine Codec.atReset []) = .next t ∧
      (machine Codec.atReset []).codecs[0]? = some Codec.atReset := ⟨_, rfl, rfl⟩

theorem witness_IgnoredFieldsHaveNoEffect :
    (∃ c d : Command, c ≠ d ∧ c.cmd = d.cmd ∧ c.inLen ≤ Config.maxInLen ∧ d.inLen ≤ Config.maxInLen ∧
      c.cmd = 0x01#8 ∧ c.inVal = d.inVal) ∧
    (∃ c d : Command, c ≠ d ∧ c.cmd = d.cmd ∧ c.inLen ≤ Config.maxInLen ∧ d.inLen ≤ Config.maxInLen ∧
      c.cmd = 0x02#8 ∧ c.inLen = d.inLen ∧ ∀ i < c.inLen, c.inBytes[i]? = d.inBytes[i]?) ∧
    (∃ c d : Command, c ≠ d ∧ c.cmd = d.cmd ∧ c.inLen ≤ Config.maxInLen ∧ d.inLen ≤ Config.maxInLen ∧ 5 < c.cmd.toNat) ∧
    (Config.maxInLen < (overlong 0x01#8).inLen) :=
  ⟨⟨⟨1#8, 7#128, 0, []⟩, ⟨1#8, 7#128, 27, [0#8]⟩, by decide, by decide, by decide, by decide, by decide, by decide⟩,
   ⟨⟨2#8, 7#128, 1, [1#8]⟩, ⟨2#8, 8#128, 1, [1#8, 2#8]⟩, by decide, by decide, by decide, by decide, by decide,
      by decide, by decide⟩,
   ⟨⟨6#8, 7#128, 0, []⟩, ⟨6#8, 8#128, 27, []⟩, by decide, by decide, by decide, by decide, by decide⟩,
   Nat.lt_succ_self _⟩

/-- A state in which instance 0 can answer `c`. -/
def ready (c : Command) : State := machine (accepted c) [(0, .answer)]

theorem witness_EqualCommandsGetEqualResponses :
    (ready (commandOfWord 1)).schedule = (0, .answer) :: [] ∧
    (ready (commandOfWord 1)).codecs[0]? = some (accepted (commandOfWord 1)) ∧
    (accepted (commandOfWord 1)).inReset = false ∧ (accepted (commandOfWord 1)).response = none ∧
    (accepted (commandOfWord 1)).queue = commandOfWord 1 :: [] := ⟨rfl, rfl, rfl, rfl, rfl⟩

theorem witness_EveryCommandHasItsOneStatus :
    (carrying 0x02#8 wideString).WellFormed ∧ (carrying 0x02#8 largestString).WellFormed ∧
    (carrying 0x02#8 []).WellFormed ∧ (carrying 0x04#8 (List.replicate 16 0#8)).WellFormed ∧
    (carrying 0x01#8 []).WellFormed ∧ (carrying 0x00#8 []).WellFormed ∧ (carrying 0x06#8 []).WellFormed ∧
    (carrying 0x02#8 wideString).inLen ≤ Config.maxInLen :=
  ⟨carrying_wellFormed _ _ (by decide), carrying_wellFormed _ _ (by decide), carrying_wellFormed _ _ (by decide),
   carrying_wellFormed _ _ (by decide), carrying_wellFormed _ _ (by decide), carrying_wellFormed _ _ (by decide),
   carrying_wellFormed _ _ (by decide), fits wideString (by decide)⟩

theorem witness_ResponsesCarryExactlyTheirPayload :
    (commandResponse (commandOfWord 6)).status ≠ 0#3 ∧ (commandResponse (commandOfWord 1)).status = 0#3 ∧
    (commandResponse (carrying 0x02#8 largestString)).status = 0#3 ∧ (commandResponse (commandOfWord 3)).status = 0#3 ∧
    (commandResponse (carrying 0x04#8 (List.replicate 16 0#8))).status = 0#3 ∧
    (commandResponse (commandOfWord 5)).status = 0#3 := by decide

/-- The reset state with a well-formed command about to be offered. -/
def offering : State := { State.reset with schedule := [(0, .offer (commandOfWord 1))] }

theorem witness_StepKeepsTheInvariant : offering.Inv ∧ ∃ t, step offering = .next t := by
  refine ⟨⟨by simp [offering, State.reset], Config.one_le_nInstances, fun u hu => ?_, fun m hm => ?_⟩, _, rfl⟩
  · have hu' : u = Codec.atReset := by simp [offering, State.reset] at hu; exact hu.2
    subst hu'
    constructor <;> simp [Codec.occupancy, Codec.atReset]
  · have hm' : m = (0, .offer (commandOfWord 1)) := by simpa [offering] using hm
    subst hm'
    exact Laws.EncodedFits.valueCommand_fits 1#8 0#128

theorem witness_StepRunsTheDecodedOperation :
    ((ready (commandOfWord 1)).schedule = (0, .answer) :: [] ∧ decode (commandOfWord 1) = .ok (.enc32 0#128)) ∧
    (∃ s : State, s.schedule = [] ∧ (∀ j < 1, ∀ w, s.codecs[j]? = some w → w.canAnswer = false) ∧
      s.codecs[1]? = some (accepted (commandOfWord 1))) :=
  ⟨⟨rfl, rfl⟩, ⟨[Codec.atReset, accepted (commandOfWord 1)], 0, []⟩, rfl, by
    intro j hj w hw
    obtain rfl : j = 0 := by omega
    simp at hw
    subst hw
    rfl, rfl⟩

theorem witness_IllegalCommandsGetOnlyTheirStatus :
    Config.maxInLen < (overlong 0x01#8).inLen ∧ (commandOfWord 0).cmd.toNat = 0 ∧ 5 < (commandOfWord 6).cmd.toNat ∧
    5 < (commandOfWord 0xFF).cmd.toNat ∧ (ready (commandOfWord 6)).schedule = (0, .answer) :: [] ∧
    (ready (commandOfWord 6)).codecs[0]? = some (accepted (commandOfWord 6)) ∧
    (accepted (commandOfWord 6)).queue = commandOfWord 6 :: [] :=
  ⟨Nat.lt_succ_self _, by decide, by decide, by decide, rfl, rfl, rfl⟩

theorem witness_ErrorsLeaveNoTrace :
    ∃ s : State, s.schedule = (0, .answer) :: (0, .take) :: [] ∧ s.codecs[0]? = some (accepted (commandOfWord 2)) ∧
      (commandResponse (commandOfWord 2)).status ≠ 0#3 :=
  ⟨machine (accepted (commandOfWord 2)) [(0, .answer), (0, .take)], rfl, rfl, by decide⟩

theorem witness_ResetDropsCommandsAndResponses :
    ∃ s : State, s.schedule = (0, .assertReset) :: [] ∧ s.codecs[0]? = some (accepted (commandOfWord 1)) :=
  ⟨machine (accepted (commandOfWord 1)) [(0, .assertReset)], rfl, rfl⟩

theorem witness_NothingHappensDuringReset :
    (∃ s t : State, s.codecs[0]? = some Codec.atReset.assertReset ∧ s.schedule.head? = some (0, .releaseReset) ∧
      step s = .next t ∧ Codec.atReset.assertReset.inReset = true ∧ Codec.atReset.assertReset.queue = [] ∧
      Codec.atReset.assertReset.response = none) ∧
    (∃ s t : State, s.codecs[0]? = some Codec.atReset.assertReset ∧
      s.schedule.head? = some (0, .offer (commandOfWord 1)) ∧ step s = .next t) :=
  ⟨⟨machine Codec.atReset.assertReset [(0, .releaseReset)], _, rfl, rfl, rfl, rfl, rfl, rfl⟩,
   ⟨machine Codec.atReset.assertReset [(0, .offer (commandOfWord 1))], _, rfl, rfl, rfl⟩⟩

theorem witness_ReleaseTakesTheInstanceOutOfReset :
    ∃ s : State, s.schedule = (0, .releaseReset) :: (0, .offer (commandOfWord 1)) :: [] ∧
      s.codecs[0]? = some Codec.atReset.assertReset ∧ Codec.atReset.assertReset.queue = [] ∧
      Codec.atReset.assertReset.response = none :=
  ⟨machine Codec.atReset.assertReset [(0, .releaseReset), (0, .offer (commandOfWord 1))], rfl, rfl, rfl, rfl⟩

/-- Ready with one place left, full, and a forward. -/
theorem witness_CommandsAreAcceptedExactlyWhenReady :
    (∃ (s : State) (u : Codec), s.schedule = (0, Move.offer (commandOfWord 1)) :: [] ∧ s.codecs[0]? = some u ∧ Codec.cmdReady u = true ∧
      u.queue.length + 1 = Config.maxOutstanding) ∧
    (∃ (s : State) (u : Codec), s.schedule = (0, Move.offer (commandOfWord 1)) :: [] ∧ s.codecs[0]? = some u ∧ Codec.cmdReady u = false ∧
      u.queue.length = Config.maxOutstanding) ∧
    (∃ (s : State) (u : Codec) (r : Response), s.schedule = (0, Move.forward 0x05#8) :: [] ∧ s.codecs[0]? = some u ∧
      u.taken.getLast? = some r ∧ r.outVal = some vectorV) := by
  refine ⟨⟨machine ⟨false, List.replicate Config.spareOutstanding (commandOfWord 1), none, [], [], 0⟩ _, _, rfl, rfl, ?_, ?_⟩,
    ⟨machine ⟨false, List.replicate Config.maxOutstanding (commandOfWord 1), none, [], [], 0⟩ _, _, rfl, rfl, ?_, ?_⟩,
    ⟨machine (afterTaking (okValue vectorV)) _, _, _, rfl, rfl, rfl, rfl⟩⟩ <;>
  simp [Codec.cmdReady, Codec.occupancy, Config.maxOutstanding]

theorem witness_ResponsesKeepAcceptanceOrder :
    (∃ s t : State, s.codecs[0]? = some Codec.atReset ∧ step s = .next t ∧
      s.schedule.head? = some (0, .offer (commandOfWord 1)) ∧ s.schedule.head? ≠ some (0, .assertReset)) ∧
    (∃ (s t : State) (u : Codec) (r : Response), s.codecs[0]? = some u ∧ step s = .next t ∧ u.response = some r ∧
      s.schedule.head? = some (0, .take) ∧ s.schedule.head? ≠ some (0, .assertReset)) ∧
    ((ready (commandOfWord 6)).schedule = (0, .answer) :: [] ∧
      (ready (commandOfWord 6)).codecs[0]? = some (accepted (commandOfWord 6)) ∧
      (accepted (commandOfWord 6)).inReset = false ∧ (accepted (commandOfWord 6)).response = none ∧
      (accepted (commandOfWord 6)).queue = commandOfWord 6 :: []) :=
  ⟨⟨machine Codec.atReset [(0, .offer (commandOfWord 1))], _, rfl, rfl, rfl, by decide⟩,
   ⟨machine { Codec.atReset with response := some (raise .illegalCommand) } [(0, .take)], _, _, _, rfl, rfl, rfl, rfl,
    by decide⟩, rfl, rfl, rfl, rfl, rfl⟩

theorem witness_OutstandingCommandsAreAllAnswered :
    ∃ (s : State) (u : Codec), s.codecs[0]? = some u ∧ u.inReset = false ∧ u.occupancy = 2 ∧
      s.schedule = (List.replicate u.occupancy [(0, Move.answer), (0, Move.take)]).flatten ++ [] :=
  ⟨machine { accepted (commandOfWord 1) with response := some (raise .illegalCommand) }
    [(0, .answer), (0, .take), (0, .answer), (0, .take)], _, rfl, rfl, rfl, rfl⟩

theorem witness_InstancesShareNothing :
    (∃ s t : State, step s = .next t ∧ s.schedule = (0, .answer) :: []) ∧ (∃ s t : State, step s = .next t ∧ s.schedule = []) :=
  ⟨⟨ready (commandOfWord 1), _, rfl, rfl⟩, ⟨machine (accepted (commandOfWord 1)) [], _, rfl, rfl⟩⟩

theorem witness_MovesAtDifferentInstancesCommute :
    (0 : Nat) ≠ 1 ∧ ∃ a, State.Reaches
      { codecs := [accepted (commandOfWord 1), accepted (commandOfWord 5)], turn := 0,
        schedule := (0, .answer) :: (1, .answer) :: [] } 2 a :=
  ⟨by decide, _, _, rfl, _, rfl, rfl⟩

theorem witness_OnlyHostReadsStopTheMachine :
    step (machine Codec.atReset [(1, .take)]) = .fault .noSuchInstance ∧
    step (machine (afterTaking (raise .invalidLength)) [(0, .read .outVal)]) = .fault .undefinedField ∧
    step (machine (afterTaking (raise .invalidLength)) [(0, .forward 0x05#8)]) = .fault .undefinedField ∧
    step (machine Codec.atReset [(0, .branchOk 1)]) = .fault .undefinedField ∧
    step (machine (afterTaking { raise .ok with status := 4#3 }) [(0, .branchOk 1)]) = .fault .undefinedStatus :=
  ⟨rfl, rfl, rfl, rfl, rfl⟩

theorem witness_ReadingAnUndefinedFieldFaults :
    (∃ s : State, s.codecs[0]? = some (afterTaking (pack128Response vectorV)) ∧
      (afterTaking (pack128Response vectorV)).taken.getLast? = some (pack128Response vectorV) ∧
      (s.schedule = (0, .read (.outByte 16)) :: []) ∧
      (pack128Response vectorV).defines (.outByte 15) = true ∧ (pack128Response vectorV).defines (.outByte 16) = false ∧
      (pack128Response vectorV).outVal = none) ∧
    (∃ s : State, s.codecs[0]? = some Codec.atReset ∧ Codec.atReset.taken = [] ∧ s.schedule = (0, .branchOk 1) :: []) :=
  ⟨⟨machine (afterTaking (pack128Response vectorV)) [(0, .read (.outByte 16))], rfl, rfl, rfl, by decide, by decide, rfl⟩,
   ⟨machine Codec.atReset [(0, .branchOk 1)], rfl, rfl, rfl⟩⟩

theorem witness_PseudoOperationsExpandToTheirResponses :
    ∃ (s : State) (p : PseudoOp), p = .stringToBinary largestString ∧ p.WellFormed ∧ s.codecs[0]? = some Codec.atReset ∧
      Codec.atReset.inReset = false ∧ Codec.atReset.queue = [] ∧ Codec.atReset.response = none ∧
      s.schedule = movesAt 0 p.moves ∧ p.responses.length = 2 :=
  ⟨machine Codec.atReset (movesAt 0 (PseudoOp.stringToBinary largestString).moves), _, rfl,
   fits largestString (by decide), rfl, rfl, rfl, rfl, rfl, by decide⟩

theorem witness_FinishedRunsStayFinished : (machine Codec.atReset []).Finished :=
  ⟨rfl, fun u hu => by simp [machine] at hu; subst hu; exact ⟨rfl, rfl, rfl, rfl⟩⟩

theorem witness_ObedientHostsNeverStopTheMachine :
    (machine (afterTaking (okValue vectorV)) [(0, .read .outVal), (0, .offer (commandOfWord 1))]).HostObeys ∧
    ∀ m ∈ (machine (afterTaking (okValue vectorV)) [(0, .read .outVal), (0, .offer (commandOfWord 1))]).schedule, m.1 < 1 := by
  refine ⟨⟨fun k m rest u c hs hu hp d hd => ?_, fun k u hu hr => ?_, fun k m rest u hs hu => ?_, fun m hm c hc => ?_⟩,
    by simp [machine]⟩
  · have hu' := List.mem_of_getElem? hu
    simp [machine] at hu'
    subst hu'
    cases hd
  · have hu' := List.mem_of_getElem? hu
    simp [machine] at hu'
    subst hu'
    cases hr
  · have hu' := List.mem_of_getElem? hu
    simp [machine] at hs hu'
    obtain ⟨⟨-, rfl⟩, -⟩ := hs
    subst hu'
    exact ⟨_, rfl, rfl, rfl⟩
  · simp [machine] at hm
    rcases hm with rfl | rfl <;> cases hc
    exact Nat.zero_le _

/-- A host that presents again, in reset, the command that was not accepted, and is going to take nothing else. -/
theorem witness_HostRecordHoldsWhatIsNotAccepted :
    ∃ (s t : State) (u : Codec), s.codecs[0]? = some u ∧ step s = .next t ∧ s.HostObeys ∧
      u.unaccepted = [commandOfWord 1] ∧ s.schedule.head? = some (0, .offer (commandOfWord 1)) := by
  refine ⟨machine { Codec.atReset.assertReset with unaccepted := [commandOfWord 1] } [(0, .offer (commandOfWord 1))], _, _,
    rfl, rfl, ⟨fun k m rest u c hs hu hp d hd => ?_, fun k u hu hr => ?_, fun k m rest u hs hu => ?_, fun m hm c hc => ?_⟩,
    rfl, rfl⟩
  · have hu' := List.mem_of_getElem? hu
    simp [machine] at hs hu'
    obtain ⟨⟨-, rfl⟩, -⟩ := hs
    subst hu'
    cases hp
    exact List.mem_singleton.1 hd
  · have hu' := List.mem_of_getElem? hu
    simp [machine] at hu'
    subst hu'
    cases hr
  · simp [machine] at hs
    obtain ⟨⟨-, rfl⟩, -⟩ := hs
    trivial
  · simp [machine] at hm
    subst hm
    cases hc
    exact Nat.zero_le _

theorem witness_AcceptedCommandsAreTakenOwedOrDropped :
    (∃ s t : State, s.codecs[0]? = some (accepted (commandOfWord 1)) ∧ step s = .next t ∧
      s.schedule.head? = some (0, .assertReset)) ∧
    (∃ s t : State, s.codecs[0]? = some (accepted (commandOfWord 1)).assertReset ∧
      0 < (accepted (commandOfWord 1)).assertReset.dropped ∧ s.Reaches 0 t) :=
  ⟨⟨machine (accepted (commandOfWord 1)) [(0, .assertReset)], _, rfl, rfl, rfl⟩,
   ⟨machine (accepted (commandOfWord 1)).assertReset [], _, rfl, by decide, rfl⟩⟩

end Sys2Proof.Tests
end

section
/-! SUPPORT. The decoder and the response of a command, by command byte (30_encoding.md R56, R57; 60_exceptions.md R126,
R127). -/

namespace Sys2Proof

theorem toNat_reservedField (b : Byte) : (reservedField b).toNat = b.toNat / 8 := by
  have hb := b.isLt
  simp only [reservedField, BitVec.extractLsb'_toNat, Nat.shiftRight_eq_div_pow]
  omega

theorem toNat_opcodeField (b : Byte) : (opcodeField b).toNat = b.toNat % 8 := by
  simp [opcodeField]

/-- The reserved bits are not all zero exactly in the bytes from 8 on (30_encoding.md R57). -/
theorem reservedField_ne_zero_iff (b : Byte) : reservedField b ≠ 0#5 ↔ 8 ≤ b.toNat := by
  rw [ne_eq, ← BitVec.toNat_inj, toNat_reservedField, BitVec.toNat_ofNat]
  omega

/-- A byte is one of the five assigned ones, or unassigned (30_encoding.md R56, R57). -/
theorem byte_assigned_or_unassigned (b : Byte) :
    b = 0x01#8 ∨ b = 0x02#8 ∨ b = 0x03#8 ∨ b = 0x04#8 ∨ b = 0x05#8 ∨ (b.toNat = 0 ∨ 5 < b.toNat) := by
  bv_omega

/-! ## The decoder, one equation for each assigned byte -/

section
variable {c : Command} (hl : c.inLen ≤ Config.maxInLen)
include hl

theorem decode_enc32 (hb : c.cmd = 0x01#8) : decode c = .ok (.enc32 c.inVal) := by
  simp [decode, Nat.not_lt.2 hl, hb, reservedField, opcodeField]

theorem decode_dec32 (hb : c.cmd = 0x02#8) : decode c = .ok (.dec32 c.operandString) := by
  simp [decode, Nat.not_lt.2 hl, hb, reservedField, opcodeField]

theorem decode_pack128 (hb : c.cmd = 0x03#8) : decode c = .ok (.pack128 c.inVal) := by
  simp [decode, Nat.not_lt.2 hl, hb, reservedField, opcodeField]

theorem decode_unpack128 (hb : c.cmd = 0x04#8) : decode c = .ok (.unpack128 c.operandString) := by
  simp [decode, Nat.not_lt.2 hl, hb, reservedField, opcodeField]

theorem decode_tsx (hb : c.cmd = 0x05#8) : decode c = .ok (.tsx c.inVal) := by
  simp [decode, Nat.not_lt.2 hl, hb, reservedField, opcodeField]

end

/-- Every other command is rejected: one over capacity, and one with an unassigned byte (60_exceptions.md R127). -/
theorem decode_illegal {c : Command} (h : Config.maxInLen < c.inLen ∨ c.cmd.toNat = 0 ∨ 5 < c.cmd.toNat) :
    ∃ e, decode c = .error e := by
  unfold decode
  by_cases hl : Config.maxInLen < c.inLen
  · exact ⟨_, if_pos hl⟩
  by_cases hr : reservedField c.cmd ≠ 0#5
  · exact ⟨_, by rw [if_neg hl, if_pos hr]⟩
  rw [if_neg hl, if_neg hr]
  rw [reservedField_ne_zero_iff] at hr
  have ho := toNat_opcodeField c.cmd
  split
  case h_6 => exact ⟨_, rfl⟩
  all_goals omega

/-- The string operand is fixed by `in_len` and the lanes below it (10_state.md R27). -/
theorem operandString_congr {c d : Command} (hn : c.inLen = d.inLen)
    (h : ∀ i < c.inLen, c.inBytes[i]? = d.inBytes[i]?) : c.operandString = d.operandString := by
  refine List.ext_getElem? fun i => ?_
  rw [Command.operandString, Command.operandString, List.getElem?_take, List.getElem?_take, ← hn]
  split
  · exact h i ‹_›
  · rfl

namespace Machine

/-! ## The response of a command -/

/-- Commands that decode alike get the same response. -/
theorem commandResponse_eq_of_decode {c d : Command} {i : Instr} (hc : decode c = .ok i) (hd : decode d = .ok i) :
    commandResponse c = commandResponse d := by
  rw [commandResponse_of_decode hc, commandResponse_of_decode hd]

theorem commandResponse_illegal {c : Command} (h : Config.maxInLen < c.inLen ∨ c.cmd.toNat = 0 ∨ 5 < c.cmd.toNat) :
    commandResponse c = raise .illegalCommand := by
  obtain ⟨e, he⟩ := decode_illegal h
  simp only [commandResponse, he]

/-- What a command can get: the response of the operation its byte names, or ILLEGAL_COMMAND. -/
theorem commandResponse_cases (c : Command) :
    (c.cmd = 0x01#8 ∧ commandResponse c = enc32Response c.inVal) ∨
    (c.cmd = 0x02#8 ∧ commandResponse c = dec32Response c.operandString) ∨
    (c.cmd = 0x03#8 ∧ commandResponse c = pack128Response c.inVal) ∨
    (c.cmd = 0x04#8 ∧ commandResponse c = unpack128Response c.operandString) ∨
    (c.cmd = 0x05#8 ∧ commandResponse c = tsxResponse c.inVal) ∨
    ((Config.maxInLen < c.inLen ∨ c.cmd.toNat = 0 ∨ 5 < c.cmd.toNat) ∧ commandResponse c = raise .illegalCommand) := by
  by_cases hl : Config.maxInLen < c.inLen
  · simp only [commandResponse_illegal (.inl hl), hl, true_or, and_self, or_true]
  rw [Nat.not_lt] at hl
  rcases byte_assigned_or_unassigned c.cmd with hb | hb | hb | hb | hb | hb
  · exact .inl ⟨hb, commandResponse_of_decode (decode_enc32 hl hb)⟩
  · exact .inr (.inl ⟨hb, commandResponse_of_decode (decode_dec32 hl hb)⟩)
  · exact .inr (.inr (.inl ⟨hb, commandResponse_of_decode (decode_pack128 hl hb)⟩))
  · exact .inr (.inr (.inr (.inl ⟨hb, commandResponse_of_decode (decode_unpack128 hl hb)⟩)))
  · exact .inr (.inr (.inr (.inr (.inl ⟨hb, commandResponse_of_decode (decode_tsx hl hb)⟩))))
  · exact .inr (.inr (.inr (.inr (.inr ⟨.inr hb, commandResponse_illegal (.inr hb)⟩))))

/-- A response that the rules can produce carries a payload only with status OK (10_state.md R31, R32). -/
theorem Response.WellFormed.noPayload {r : Response} (h : r.WellFormed) (hs : r.status ≠ 0#3) : r.NoPayload := by
  obtain ⟨h0, -⟩ | ⟨-, hn⟩ := h
  · exact absurd h0 hs
  · exact hn

theorem dec32Response_onlyValue {s : List Byte} (h : (dec32Response s).status = 0#3) : (dec32Response s).OnlyValue := by
  rcases dec32Response_cases s with ⟨-, hr⟩ | ⟨-, -, hr⟩ | ⟨-, -, hr⟩ <;> rw [hr] at h ⊢
  · cases h
  · cases h
  · exact okValue_onlyValue _

theorem unpack128Response_onlyValue {b : List Byte} (h : (unpack128Response b).status = 0#3) :
    (unpack128Response b).OnlyValue := by
  rcases unpack128Response_cases b with ⟨-, hr⟩ | ⟨-, v, hr⟩ <;> rw [hr] at h ⊢
  · cases h
  · exact okValue_onlyValue v

end Machine
end Sys2Proof
end

section
/-! SUPPORT. A value and its two parts (10_state.md R22, R23), as numbers. -/

namespace Sys2Proof.Machine

theorem toNat_timestampOf (v : Value) : (timestampOf v).toNat = v.toNat / 2 ^ 80 := by
  have hv := v.isLt
  rw [timestampOf, BitVec.extractLsb'_toNat, Nat.shiftRight_eq_div_pow]
  exact Nat.mod_eq_of_lt (by omega)

theorem toNat_randomOf (v : Value) : (randomOf v).toNat = v.toNat % 2 ^ 80 := by
  rw [randomOf, BitVec.extractLsb'_toNat, Nat.shiftRight_zero]

theorem toNat_valueOf (ts : Timestamp) (rnd : Random) : (valueOf ts rnd).toNat = ts.toNat * 2 ^ 80 + rnd.toNat := by
  rw [valueOf, BitVec.toNat_append, ← Nat.shiftLeft_add_eq_or_of_lt rnd.isLt, Nat.shiftLeft_eq]

@[simp] theorem valueOf_timestampOf_randomOf (v : Value) : valueOf (timestampOf v) (randomOf v) = v := by
  refine BitVec.eq_of_toNat_eq ?_
  rw [toNat_valueOf, toNat_timestampOf, toNat_randomOf, Nat.mul_comm]
  exact Nat.div_add_mod _ _

@[simp] theorem timestampOf_valueOf (ts : Timestamp) (rnd : Random) : timestampOf (valueOf ts rnd) = ts := by
  have hr := rnd.isLt
  refine BitVec.eq_of_toNat_eq ?_
  rw [toNat_timestampOf, toNat_valueOf]
  omega

@[simp] theorem randomOf_valueOf (ts : Timestamp) (rnd : Random) : randomOf (valueOf ts rnd) = rnd := by
  have hr := rnd.isLt
  refine BitVec.eq_of_toNat_eq ?_
  rw [toNat_randomOf, toNat_valueOf]
  omega

end Sys2Proof.Machine
end

section
/-! SUPPORT. The host's reading of a response: what a scheduled read, forward or branch does (10_state.md R33, R39). -/

namespace Sys2Proof.Machine

/-- A read of a response that was taken goes on exactly when the field has a value. -/
theorem readField_of_taken {s : State} {u : Codec} {r : Response} (h : u.lastTaken = some r) (f : Field) :
    s.readField u f = if r.defines f then .next s else .fault .undefinedField := by
  simp only [State.readField, h]

theorem forward_without_value {s : State} {k : Nat} {u : Codec} {cmd : Byte}
    (h : u.lastTaken.bind Response.outVal = none) : s.forward k u cmd = .fault .undefinedField := by
  simp only [State.forward, h]

theorem readField_of_none {s : State} {u : Codec} {f : Field} (h : u.lastTaken = none) :
    s.readField u f = .fault .undefinedField := by
  simp only [State.readField, h]

theorem branchOk_of_none {s : State} {k : Nat} {u : Codec} {n : Nat} (h : u.lastTaken = none) :
    s.branchOk k u n = .fault .undefinedField := by
  simp only [State.branchOk, h]

/-- A lane of `out_bytes` is defined when the response has the lane and the lane has a value. -/
theorem defines_outByte_iff (r : Response) (i : Nat) :
    r.defines (.outByte i) = true ↔ ∃ b, r.outBytes[i]? = some (some b) := by
  rw [Response.defines, List.getD_eq_getElem?_getD]
  rcases r.outBytes[i]? with _ | _ | b <;> simp

end Sys2Proof.Machine
end

section
/-! The obligations of 10_state.md. -/

namespace Sys2Proof.Machine

/-- Settles O30: a command's response is its operation's on the operand that the decoder reads, so two commands whose bytes
and operands agree get the same; every illegal command gets the one response of `raise`. -/
theorem ignoredFieldsHaveNoEffect : Obligations.IgnoredFieldsHaveNoEffect := by
  refine ⟨fun c d hcd hc hd => ⟨fun hb hv => ?_, fun hb hn hlanes => ?_, fun hb => ?_⟩,
    fun c hc => commandResponse_illegal (.inl hc)⟩
  · rcases hb with hb | hb | hb
    · exact commandResponse_eq_of_decode (decode_enc32 hc hb) (hv ▸ decode_enc32 hd (hcd ▸ hb))
    · exact commandResponse_eq_of_decode (decode_pack128 hc hb) (hv ▸ decode_pack128 hd (hcd ▸ hb))
    · exact commandResponse_eq_of_decode (decode_tsx hc hb) (hv ▸ decode_tsx hd (hcd ▸ hb))
  · have hs : c.operandString = d.operandString := operandString_congr hn hlanes
    rcases hb with hb | hb
    · exact commandResponse_eq_of_decode (decode_dec32 hc hb) (hs ▸ decode_dec32 hd (hcd ▸ hb))
    · exact commandResponse_eq_of_decode (decode_unpack128 hc hb) (hs ▸ decode_unpack128 hd (hcd ▸ hb))
  · rw [commandResponse_illegal (.inr hb), commandResponse_illegal (.inr (hcd ▸ hb))]

/-- Settles O31: in either state the step answers with `commandResponse c`, which reads nothing but the command. -/
theorem equalCommandsGetEqualResponses : Obligations.EqualCommandsGetEqualResponses := by
  intro s s' k k' rest rest' u u' c q q' hs hs' hu hu' hr hr' hp hp' hq hq'
  refine ⟨_, _, { u with queue := q, response := some (commandResponse c) },
    { u' with queue := q', response := some (commandResponse c) }, commandResponse c,
    step_answer hs hu hr hp hq, step_answer hs' hu' hr' hp' hq', ?_, ?_, rfl, rfl⟩
  · exact (getElem?_set_codec hu).trans (if_pos rfl)
  · exact (getElem?_set_codec hu').trans (if_pos rfl)

/-- Settles O33, by the operation the command byte names. -/
theorem responsesCarryExactlyTheirPayload : Obligations.ResponsesCarryExactlyTheirPayload := by
  refine fun c => ⟨(commandResponse_wellFormed c).noPayload, fun h => ?_⟩
  rcases commandResponse_cases c with ⟨hb, hr⟩ | ⟨hb, hr⟩ | ⟨hb, hr⟩ | ⟨hb, hr⟩ | ⟨hb, hr⟩ | ⟨-, hr⟩ <;> rw [hr] at h ⊢
  · exact .inl ⟨hb, enc32Response_onlyBytes _⟩
  · exact .inr (.inl ⟨hb, dec32Response_onlyValue h⟩)
  · exact .inr (.inr (.inl ⟨hb, pack128Response_onlyBytes _⟩))
  · exact .inr (.inr (.inr (.inl ⟨hb, unpack128Response_onlyValue h⟩)))
  · exact .inr (.inr (.inr (.inr ⟨hb, okTimestamp_onlyTimestamp _⟩)))
  · cases h

/-- Settles O11: the parts are the quotient and the remainder by `2^80`. -/
theorem valueIsItsTimestampAndRandomPart : Obligations.ValueIsItsTimestampAndRandomPart := by
  refine ⟨fun v => ⟨?_, toNat_timestampOf v, toNat_randomOf v, valueOf_timestampOf_randomOf v⟩,
    fun ts rnd => ⟨timestampOf_valueOf ts rnd, randomOf_valueOf ts rnd⟩⟩
  rw [← toNat_valueOf, valueOf_timestampOf_randomOf]

/-- Settles O47: each scheduled move is `readField`, `forward` or `branchOk` on the last response taken. -/
theorem readingAnUndefinedFieldFaults : Obligations.ReadingAnUndefinedFieldFaults := by
  refine ⟨fun s k rest u r hu ht => ⟨fun f hs => ?_, ⟨rfl, rfl, rfl, defines_outByte_iff r⟩, fun cmd hs hv => ?_⟩,
    fun s k m rest u hu ht hs hm => ?_⟩
  · exact (step_at hs hu).trans (readField_of_taken ht f)
  · have hn : u.lastTaken.bind Response.outVal = none := by rw [Codec.lastTaken, ht, Option.bind_some, hv]
    exact (step_at hs hu).trans (forward_without_value hn)
  · have hn : u.lastTaken = none := by rw [Codec.lastTaken, ht, List.getLast?_nil]
    rw [step_at hs hu]
    rcases hm with ⟨f, rfl⟩ | ⟨cmd, rfl⟩ | ⟨n, rfl⟩
    · exact readField_of_none hn
    · exact forward_without_value (by rw [hn, Option.bind_none])
    · exact branchOk_of_none hn

end Sys2Proof.Machine
end

section
/-! SUPPORT. The binary form, byte by byte and as big-endian numbers (20_memory.md R40, 41_binary_codec.md R101). -/

namespace Sys2Proof.Machine

@[simp] theorem pack128Response_bytes (v : Value) : (pack128Response v).bytes = binaryForm v := okBytes_bytes _

theorem getElem?_binaryForm (v : Value) {k : Nat} (h : k < 16) :
    (binaryForm v)[k]? = some (v.extractLsb' (120 - 8 * k) 8) := by
  simp [binaryForm, h]

@[simp] theorem bigEndian_singleton (b : Byte) : bigEndian [b] = b.toNat := by simp [bigEndian]

/-- Any run of bytes of the binary form, read big-endian, is the run of bits of the value that it stands for. -/
theorem bigEndian_slice_binaryForm (v : Value) (i n : Nat) (h : i + n ≤ 16) :
    bigEndian (((binaryForm v).drop i).take n) = (v.extractLsb' (8 * (16 - i - n)) (8 * n)).toNat := by
  induction n with
  | zero => simp [bigEndian]
  | succ n ih =>
    have hbyte : ((binaryForm v).drop i)[n]? = some (v.extractLsb' (8 * (16 - i - (n + 1))) 8) := by
      rw [List.getElem?_drop, getElem?_binaryForm v (by omega), show 120 - 8 * (i + n) = 8 * (16 - i - (n + 1)) by omega]
    have happend : v.extractLsb' (8 * (16 - i - n)) (8 * n) ++ v.extractLsb' (8 * (16 - i - (n + 1))) 8 =
        v.extractLsb' (8 * (16 - i - (n + 1))) (8 * (n + 1)) :=
      BitVec.extractLsb'_append_extractLsb'_eq_extractLsb' (by omega)
    rw [List.take_add_one, hbyte, Option.toList_some, bigEndian_append, bigEndian_singleton, List.length_singleton,
      ih (by omega), ← happend, BitVec.toNat_append, ← Nat.shiftLeft_add_eq_or_of_lt (BitVec.isLt _), Nat.shiftLeft_eq,
      show 256 ^ 1 = 2 ^ 8 from rfl]

/-- All sixteen bytes read big-endian are the value (20_memory.md R40). -/
theorem bigEndian_binaryForm (v : Value) : bigEndian (binaryForm v) = v.toNat := by
  have h := bigEndian_slice_binaryForm v 0 16 (Nat.le_refl _)
  rw [List.drop_zero, List.take_of_length_le (length_binaryForm v).le] at h
  exact h.trans (congrArg BitVec.toNat BitVec.extractLsb'_eq_self)

/-- The timestamp is the first two fields (41_binary_codec.md R101). -/
theorem timestampOf_eq_append (v : Value) : timestampOf v = v.extractLsb' 96 32 ++ v.extractLsb' 80 16 :=
  (BitVec.extractLsb'_append_extractLsb'_eq_extractLsb' (len₁ := 16) (len₂ := 32) rfl).symm

/-- The random part is the last three fields (41_binary_codec.md R101). -/
theorem randomOf_eq_append (v : Value) :
    randomOf v = v.extractLsb' 64 16 ++ (v.extractLsb' 32 32 ++ v.extractLsb' 0 32) := by
  rw [BitVec.extractLsb'_append_extractLsb'_eq_extractLsb' (len₁ := 32) (len₂ := 32) rfl]
  exact (BitVec.extractLsb'_append_extractLsb'_eq_extractLsb' (len₁ := 64) (len₂ := 16) rfl).symm

end Sys2Proof.Machine
end

section
/-! The obligation of 20_memory.md. -/

namespace Sys2Proof.Machine

/-- Settles O24: each field is one slice of the binary form, and the two parts of the value are appended fields. -/
theorem binaryFormHasFiveBigEndianFields : Obligations.BinaryFormHasFiveBigEndianFields := by
  intro v
  have field1 : bigEndian ((binaryForm v).take 4) = (v.extractLsb' 96 32).toNat :=
    bigEndian_slice_binaryForm v 0 4 (by decide)
  have field2 : bigEndian (((binaryForm v).drop 4).take 2) = (v.extractLsb' 80 16).toNat :=
    bigEndian_slice_binaryForm v 4 2 (by decide)
  have field3 : bigEndian (((binaryForm v).drop 6).take 2) = (v.extractLsb' 64 16).toNat :=
    bigEndian_slice_binaryForm v 6 2 (by decide)
  have field4 : bigEndian (((binaryForm v).drop 8).take 4) = (v.extractLsb' 32 32).toNat :=
    bigEndian_slice_binaryForm v 8 4 (by decide)
  have field5 : bigEndian (((binaryForm v).drop 12).take 4) = (v.extractLsb' 0 32).toNat :=
    bigEndian_slice_binaryForm v 12 4 (by decide)
  simp only [pack128Response_bytes]
  refine ⟨fun k hk => getElem?_binaryForm v hk, field1, field2, field3, field4, field5, bigEndian_binaryForm v, ?_, ?_⟩
  · rw [field1, field2, timestampOf_eq_append, BitVec.toNat_append]
  · rw [field3, field4, field5, randomOf_eq_append, BitVec.toNat_append, BitVec.toNat_append, Nat.or_assoc]

end Sys2Proof.Machine
end

section
/-! The obligations of 30_encoding.md. -/

namespace Sys2Proof

/-- A command that decodes has an assigned byte (30_encoding.md R56). -/
theorem cmd_assigned_of_decode {c : Command} {i : Instr} (h : decode c = .ok i) :
    c.cmd = 0x01#8 ∨ c.cmd = 0x02#8 ∨ c.cmd = 0x03#8 ∨ c.cmd = 0x04#8 ∨ c.cmd = 0x05#8 := by
  have hlegal : ¬(c.cmd.toNat = 0 ∨ 5 < c.cmd.toNat) := by
    intro hb
    obtain ⟨e, he⟩ := decode_illegal (.inr hb)
    rw [he] at h
    cases h
  simpa only [hlegal, or_false] using byte_assigned_or_unassigned c.cmd

theorem decodeTableWord_of_decode {w : Nat} {i : Instr} (hw : w < 2 ^ 8) (h : decode (commandOfWord w) = .ok i) :
    decodeTableWord 8 w = some i := by
  rw [decodeTableWord, if_pos ⟨rfl, hw⟩, h]
  rfl

/-- Settles O2: an assigned byte decodes by its own equation, and any other byte has a reserved bit set or the code 0, 6 or 7
and is rejected. -/
theorem decodeIsTotalOverAllCommandBytes : Obligations.DecodeIsTotalOverAllCommandBytes := by
  intro c hl
  rcases byte_assigned_or_unassigned c.cmd with hb | hb | hb | hb | hb | hb
  · rw [decode_enc32 hl hb, hb]; rfl
  · rw [decode_dec32 hl hb, hb]; rfl
  · rw [decode_pack128 hl hb, hb]; rfl
  · rw [decode_unpack128 hl hb, hb]; rfl
  · rw [decode_tsx hl hb, hb]; rfl
  · obtain ⟨e, he⟩ := decode_illegal (.inr hb)
    rw [he]
    by_cases hr : c.cmd.toNat / 8 ≠ 0
    · exact (if_pos hr).symm
    have hcode : c.cmd.toNat % 8 = 0 ∨ c.cmd.toNat % 8 = 6 ∨ c.cmd.toNat % 8 = 7 := by omega
    rw [if_neg hr]
    rcases hcode with ho | ho | ho <;> rw [ho] <;> rfl

/-- Settles O1: the decoder's equations at the five bytes, which hold of the table's words too, and no other byte decodes. -/
theorem assignedBytesDecodeToTheirOperations : Obligations.AssignedBytesDecodeToTheirOperations := by
  refine ⟨fun v n bs hn => ⟨?_, ?_, ?_, ?_, ?_⟩, fun c i => cmd_assigned_of_decode, ?_, ?_, ?_, ?_, ?_⟩
  · exact decode_enc32 hn rfl
  · exact decode_dec32 hn rfl
  · exact decode_pack128 hn rfl
  · exact decode_unpack128 hn rfl
  · exact decode_tsx hn rfl
  · exact decodeTableWord_of_decode (by decide) (decode_enc32 (Nat.zero_le _) rfl)
  · exact decodeTableWord_of_decode (by decide) (decode_dec32 (Nat.zero_le _) rfl)
  · exact decodeTableWord_of_decode (by decide) (decode_pack128 (Nat.zero_le _) rfl)
  · exact decodeTableWord_of_decode (by decide) (decode_unpack128 (Nat.zero_le _) rfl)
  · exact decodeTableWord_of_decode (by decide) (decode_tsx (Nat.zero_le _) rfl)

end Sys2Proof
end

section
/-! SUPPORT. The canonical string as the 26 digits of the value, and DEC32 as its inverse (40_base32_codec.md R80 to R92). -/

namespace Sys2Proof.Machine

/-! ## The digits of a value and of its two halves -/

/-- Digit `i` is a group of five bits, the most significant group first (00_scope.md R12). -/
theorem digits32_toNat {w : Nat} (n : Nat) (x : BitVec w) :
    digits32 n x.toNat = (List.range n).map fun i => x.extractLsb' (5 * (n - 1) - 5 * i) 5 := by
  refine List.map_congr_left fun i _ => ?_
  rw [← Nat.mul_sub]
  rfl

/-- The cut after ten digits falls between the timestamp and the random part (40_base32_codec.md R83). -/
theorem digits32_halves (v : Value) :
    digits32 26 v.toNat = digits32 10 (timestampOf v).toNat ++ digits32 16 (randomOf v).toNat := by
  have hcut := digits32_add 10 16 v.toNat
  rw [← digits32_mod 16] at hcut
  rw [toNat_timestampOf, toNat_randomOf]
  exact hcut

/-- The first digit has only the top three bits of the value (40_base32_codec.md R81). -/
theorem head?_digits32_timestampOf (v : Value) :
    (digits32 10 (timestampOf v).toNat).head? = some ((v.extractLsb' 125 3).zeroExtend 5) := by
  have hv := v.isLt
  rw [digits32_succ, List.head?_cons, toNat_timestampOf]
  refine congrArg some (BitVec.eq_of_toNat_eq ?_)
  simp only [BitVec.toNat_ofNat, BitVec.truncate_eq_setWidth, BitVec.toNat_setWidth, BitVec.extractLsb'_toNat,
    Nat.shiftRight_eq_div_pow]
  omega

/-- Numbers that fit `n` digits are ordered as their characters are (40_base32_codec.md R76 (c), R84). -/
theorem lex_map_encSym_digits32 {n x y : Nat} (hxy : x < y) (hy : y < 32 ^ n) :
    List.Lex (fun a b : Byte => a.toNat < b.toNat) ((digits32 n x).map encSym) ((digits32 n y).map encSym) := by
  induction n generalizing x y with
  | zero => omega
  | succ n ih =>
    have hlead : ∀ z, z < 32 ^ (n + 1) → (BitVec.ofNat 5 (z >>> (5 * n))).toNat = z / 32 ^ n := by
      intro z hz
      rw [BitVec.toNat_ofNat, Nat.shiftRight_eq_div_pow, Nat.pow_mul]
      exact Nat.mod_eq_of_lt (Nat.div_lt_of_lt_mul hz)
    have hleadx := hlead x (hxy.trans hy)
    have hleady := hlead y hy
    rw [digits32_succ, digits32_succ, List.map_cons, List.map_cons]
    rcases Nat.lt_or_eq_of_le (Nat.div_le_div_right (c := 32 ^ n) hxy.le) with hlt | heq
    · exact .rel (encSym_strictMono _ _ (by rwa [hleadx, hleady]))
    · have hmod : x % 32 ^ n < y % 32 ^ n := by
        have hdx := Nat.div_add_mod x (32 ^ n)
        have hdy := Nat.div_add_mod y (32 ^ n)
        rw [heq] at hdx
        omega
      rw [BitVec.eq_of_toNat_eq (hleadx.trans (heq.trans hleady.symm)), ← digits32_mod n x, ← digits32_mod n y]
      exact .cons (ih hmod (Nat.mod_lt _ (Nat.pow_pos (by decide))))

/-! ## ENC32 -/

/-- The canonical string is the characters of the value's 26 digits (40_base32_codec.md R83). -/
theorem enc32Response_bytes (v : Value) : (enc32Response v).bytes = (digits32 26 v.toNat).map encSym := by
  rw [enc32Response_eq, okBytes_bytes, digits32_halves, List.map_append]

/-- A string of 26 bytes fills the lanes (10_state.md R32). -/
theorem okBytes_of_length_eq {bs : List Byte} (h : bs.length = 26) :
    okBytes bs =
      { status := 0#3, outVal := none, outTs := none, outLen := some 26#5, outBytes := bs.map some } := by
  rw [okBytes, outputLanes, h, Nat.sub_self, List.replicate_zero, List.append_nil]
  rfl

/-- The first character is `0` and the top three bits of the value (40_base32_codec.md R81). -/
theorem head?_enc32Response_bytes (v : Value) :
    (enc32Response v).bytes.head? = some (0x30#8 + (v.extractLsb' 125 3).zeroExtend 8) := by
  have hchar : ∀ t : BitVec 3, encSym (t.zeroExtend 5) = 0x30#8 + t.zeroExtend 8 := by decide
  rw [enc32Response_bytes, digits32_halves, List.head?_map, List.head?_append, head?_digits32_timestampOf, Option.some_or,
    Option.map_some, hchar]

theorem alphabet_eq_asciiBytes : alphabet = asciiBytes "0123456789ABCDEFGHJKMNPQRSTVWXYZ" := by decide

/-! ## DEC32 -/

/-- DEC32 sees a string only through its normalization (40_base32_codec.md R87). -/
theorem dec32Response_congr {a b : List Byte} (h : normSyms a = normSyms b) : dec32Response a = dec32Response b := by
  simp only [dec32Response, h]

theorem dec32Response_map_upper (s : List Byte) : dec32Response (s.map upper) = dec32Response s :=
  dec32Response_congr (normSyms_map_upper s)

/-- A byte that stands for no symbol may be left out (40_base32_codec.md R77, R87). -/
theorem dec32Response_append_cons_of_none (a z : List Byte) {b : Byte} (h : decSym b = none) :
    dec32Response (a ++ b :: z) = dec32Response (a ++ z) :=
  dec32Response_congr (by rw [normSyms_append, normSyms_append, normSyms_cons_of_none h])

theorem dec32Response_of_length_ne {s : List Byte} (h : (normSyms s).length ≠ 26) :
    dec32Response s = raise .invalidLength := by
  rcases dec32Response_cases s with ⟨-, hr⟩ | ⟨hl, -⟩ | ⟨hl, -⟩
  · exact hr
  · exact absurd hl h
  · exact absurd hl h

/-- A stripped byte makes the normalization shorter than the string (40_base32_codec.md R77). -/
theorem length_normSyms_lt {s : List Byte} (h : ∃ b ∈ s, decSym b = none) : (normSyms s).length < s.length := by
  obtain ⟨b, hb, hn⟩ := h
  obtain ⟨a, z, rfl⟩ := List.append_of_mem hb
  have ha : (normSyms a).length ≤ a.length := List.length_filterMap_le _ _
  have hz : (normSyms z).length ≤ z.length := List.length_filterMap_le _ _
  rw [normSyms_append, normSyms_cons_of_none hn, List.length_append, List.length_append, List.length_cons]
  omega

/-- The timestamp symbols write `2^48` or more exactly when the first of the ten is 8 or more (40_base32_codec.md R89). -/
theorem two_pow_48_le_radix32_cons_iff (x : Sym) {xs : List Sym} (h : xs.length = 9) :
    2 ^ 48 ≤ radix32 (x :: xs) ↔ 8 ≤ x.toNat := by
  have hlt := radix32_lt xs
  rw [radix32, h]
  rw [h] at hlt
  omega

/-- The random part stands in the low 80 bits, the timestamp above it (10_state.md R23). -/
theorem valueOf_ofNat (t : Nat) {r : Nat} (hr : r < 2 ^ 80) :
    valueOf (BitVec.ofNat 48 t) (BitVec.ofNat 80 r) = BitVec.ofNat 128 (t * 2 ^ 80 + r) := by
  refine BitVec.eq_of_toNat_eq ?_
  rw [toNat_valueOf, BitVec.toNat_ofNat, BitVec.toNat_ofNat, BitVec.toNat_ofNat]
  omega

/-- The random symbols always fit the random part. -/
theorem radix32_drop_lt {ds : List Sym} (h : ds.length = 26) : radix32 (ds.drop 10) < 2 ^ 80 := by
  have hlt := radix32_lt (ds.drop 10)
  rwa [List.length_drop, h] at hlt

/-- The symbols of an accepted string are the digits of the value that DEC32 answers, since digits are unique. -/
theorem normSyms_eq_digits32_of_ok {s : List Byte} {v : Value} (hlen : (normSyms s).length = 26)
    (hts : radix32 ((normSyms s).take 10) < 2 ^ 48)
    (hv : valueOf (BitVec.ofNat 48 (radix32 ((normSyms s).take 10)))
      (BitVec.ofNat 80 (radix32 ((normSyms s).drop 10))) = v) :
    normSyms s = digits32 26 v.toNat := by
  have htake := digits32_radix32 ((normSyms s).take 10)
  have hdrop := digits32_radix32 ((normSyms s).drop 10)
  rw [List.length_take, hlen] at htake
  rw [List.length_drop, hlen] at hdrop
  rw [digits32_halves, ← hv, timestampOf_valueOf, randomOf_valueOf, BitVec.toNat_ofNat, BitVec.toNat_ofNat,
    Nat.mod_eq_of_lt hts, Nat.mod_eq_of_lt (radix32_drop_lt hlen)]
  exact ((congrArg₂ _ htake hdrop).trans (List.take_append_drop 10 _)).symm

/-- DEC32 accepts a string with the value `v` exactly when its symbols are the digits of `v` (40_base32_codec.md R91, R92). -/
theorem dec32Response_eq_okValue_iff (s : List Byte) (v : Value) :
    dec32Response s = okValue v ↔ normSyms s = digits32 26 v.toNat := by
  constructor
  · intro h
    rcases dec32Response_cases s with ⟨-, hr⟩ | ⟨-, -, hr⟩ | ⟨hlen, hts, hr⟩ <;> rw [hr] at h
    · cases h
    · cases h
    · exact normSyms_eq_digits32_of_ok hlen hts (Option.some.inj (congrArg Response.outVal h))
  · intro h
    have htake : (normSyms s).take 10 = digits32 10 (timestampOf v).toNat := by
      rw [h, digits32_halves, List.take_left' (length_digits32 _ _)]
    have hdrop : (normSyms s).drop 10 = digits32 16 (randomOf v).toNat := by
      rw [h, digits32_halves, List.drop_left' (length_digits32 _ _)]
    have hts : radix32 ((normSyms s).take 10) = (timestampOf v).toNat := by
      rw [htake, radix32_digits32]
      exact Nat.mod_eq_of_lt ((timestampOf v).isLt.trans (by decide))
    have hrnd : radix32 ((normSyms s).drop 10) = (randomOf v).toNat := by
      rw [hdrop, radix32_digits32]
      exact Nat.mod_eq_of_lt (randomOf v).isLt
    rcases dec32Response_cases s with ⟨hlen, -⟩ | ⟨-, hge, -⟩ | ⟨-, -, hr⟩
    · exact absurd (by rw [h, length_digits32]) hlen
    · exact absurd (hts ▸ (timestampOf v).isLt) (Nat.not_lt.2 hge)
    · rw [hr, hts, hrnd, BitVec.ofNat_toNat, BitVec.ofNat_toNat, BitVec.setWidth_eq, BitVec.setWidth_eq,
        valueOf_timestampOf_randomOf]

/-- DEC32 of the canonical string is the value (40_base32_codec.md R91). -/
theorem dec32Response_enc32Response (v : Value) : dec32Response (enc32Response v).bytes = okValue v :=
  (dec32Response_eq_okValue_iff _ v).2 (by rw [enc32Response_bytes, normSyms_map_encSym])

/-- The symbols' characters are the string without its stripped bytes, uppercased (40_base32_codec.md R92). -/
theorem map_encSym_normSyms (s : List Byte) :
    (normSyms s).map encSym = (s.filter fun b => (decSym b).isSome).map upper := by
  induction s with
  | nil => rfl
  | cons b s ih =>
    rw [normSyms_cons, List.map_append, ih]
    cases h : decSym b with
    | none => simp [h]
    | some x => simp [h, encSym_of_decSym b x h]

/-- An operation's response is presented at the codec whose turn it is (10_state.md R34, 70_reset_and_hazards.md R150). -/
theorem exec_answers (i : Instr) {s : State} {u : Codec} (hu : s.codecs[s.turn]? = some u) :
    ∃ t u', exec i s = .next t ∧ t.codecs[s.turn]? = some u' ∧ u'.response = some (responseOf i) :=
  ⟨_, { u with response := some (responseOf i) }, exec_eq i s, by simp [hu], rfl⟩

end Sys2Proof.Machine
end

section
/-! The obligations of 40_base32_codec.md. -/

namespace Sys2Proof.Machine

/-- Settles O22: the command's operand is the canonical string of the value, whose symbols are the value's digits. -/
theorem dec32OfEnc32IsTheValue : Obligations.Dec32OfEnc32IsTheValue := by
  intro c d hcb hcl hdb hdl hbytes
  have hcap : d.inLen ≤ Config.maxInLen := by have := Config.twentySeven_le_maxInLen; omega
  have henc : commandResponse c = enc32Response c.inVal := commandResponse_of_decode (decode_enc32 hcl hcb)
  have hdec : commandResponse d = dec32Response d.operandString := commandResponse_of_decode (decode_dec32 hcap hdb)
  rw [hdec, Command.operandString, hdl, hbytes, henc, dec32Response_enc32Response]
  exact ⟨rfl, rfl⟩

/-- Settles O23: an accepted string's symbols are its value's digits; a hyphen in front of a canonical string is stripped. -/
theorem enc32OfDec32IsTheNormalizedString : Obligations.Enc32OfDec32IsTheNormalizedString := by
  refine ⟨fun str v hs hv => ?_, fun a b => dec32Response_congr, ?_⟩
  · have hok : dec32Response str = okValue v := by
      rcases dec32Response_cases str with ⟨-, hr⟩ | ⟨-, -, hr⟩ | ⟨-, -, hr⟩ <;> rw [hr] at hs hv
      · cases hs
      · cases hs
      · rw [hr, Option.some.inj hv]
    have hdigits := (dec32Response_eq_okValue_iff str v).1 hok
    rw [← map_encSym_normSyms, enc32Response_bytes, hdigits]
    exact ⟨rfl, rfl⟩
  · have ha := dec32Response_enc32Response 0#128
    have hb : dec32Response (0x2D#8 :: (enc32Response 0#128).bytes) = okValue 0#128 :=
      (dec32Response_append_cons_of_none [] _ (by decide)).trans ha
    refine ⟨(enc32Response 0#128).bytes, _, (List.cons_ne_self 0x2D#8 _).symm, 0#128, ?_, ?_⟩
    · rw [ha]; rfl
    · rw [hb]; rfl

/-- Settles O6: the 26 lanes are the digits of the two halves, each a group of five bits. -/
theorem enc32FollowsItsRule : Obligations.Enc32FollowsItsRule := by
  refine ⟨fun c hb hl => decode_enc32 hl hb, fun v s => ?_, by decide, by decide, fun v => ?_, by decide⟩
  · have hext : (timestampOf v).toNat = ((timestampOf v).zeroExtend 50).toNat :=
      (BitVec.toNat_setWidth_of_le (by decide)).symm
    rw [exec_eq, responseOf, enc32Response_eq, hext, digits32_toNat, digits32_toNat,
      okBytes_of_length_eq (by simp), List.map_append, List.map_map, List.map_map, List.map_map, List.map_map]
    rfl
  · have hrange : ∀ t : BitVec 3, 0x30#8 ≤ 0x30#8 + t.zeroExtend 8 ∧ 0x30#8 + t.zeroExtend 8 ≤ 0x37#8 := by decide
    exact ⟨_, head?_enc32Response_bytes v, hrange _⟩

/-- Settles O7: the three outcomes of `dec32Response_cases`, and the corner cases by their normalization. -/
theorem dec32FollowsItsRule : Obligations.Dec32FollowsItsRule := by
  refine ⟨fun c hb hl => decode_dec32 hl hb, fun c _ hl => ?_, fun str s => ?_, by decide, fun str hstr => ?_,
    dec32Response_map_upper, fun a z b => dec32Response_append_cons_of_none a z, by decide, fun str hlen hstr => ?_,
    by decide, by decide, by decide⟩
  · rw [commandResponse_illegal (.inl hl)]; rfl
  · rw [exec_eq, responseOf]
    rcases dec32Response_cases str with ⟨hlen, hr⟩ | ⟨hlen, hts, hr⟩ | ⟨hlen, hts, hr⟩
    · rw [hr, if_pos hlen]; rfl
    · rw [hr, if_neg (not_not.2 hlen), if_pos hts]; rfl
    · rw [hr, if_neg (not_not.2 hlen), if_neg (Nat.not_le.2 hts), valueOf_ofNat _ (radix32_drop_lt hlen)]; rfl
  · have hnil : normSyms str = [] := List.filterMap_eq_nil_iff.2 hstr
    rw [dec32Response_of_length_ne (by rw [hnil]; decide)]; rfl
  · have hlt := length_normSyms_lt hstr
    rw [dec32Response_of_length_ne (by omega)]; rfl

/-- Settles O12: both halves' digits are the digits of the whole value, and digit `k` is group `k` of 130 bits. -/
theorem splitEncodingEqualsWholeEncoding : Obligations.SplitEncodingEqualsWholeEncoding := by
  refine fun v => ⟨enc32Response_bytes v, fun k hk => ?_⟩
  have hext : v.toNat = (v.zeroExtend 130).toNat := (BitVec.toNat_setWidth_of_le (by decide)).symm
  rw [enc32Response_bytes, hext, List.getElem?_map, getElem?_digits32 _ _ _ hk, Option.map_some,
    show 5 * (26 - 1 - k) = 125 - 5 * k by omega]
  rfl

/-- Settles O13: the first digit is the top three bits of the value, zero-extended. -/
theorem firstCharacterIsTopThreeBits : Obligations.FirstCharacterIsTopThreeBits := by
  refine fun v => ⟨fun d hd => ?_, head?_enc32Response_bytes v⟩
  have htop : ∀ t : BitVec 3, (t.zeroExtend 5).extractLsb' 3 2 = 0#2 := by decide
  rw [head?_digits32_timestampOf, Option.mem_some_iff] at hd
  rw [← hd, htop]

/-- Settles O14: every byte is the character of a digit. -/
theorem encodedBytesAreInTheAlphabet : Obligations.EncodedBytesAreInTheAlphabet := by
  intro v
  rw [enc32Response_bytes, ← alphabet_eq_asciiBytes]
  obtain ⟨-, -, hlen, -⟩ := enc32Response_onlyBytes v
  refine ⟨hlen, by rw [List.length_map, length_digits32], fun b hb => ?_⟩
  obtain ⟨x, -, rfl⟩ := List.mem_map.1 hb
  exact encSym_mem_alphabet x

/-- Settles O15: digits sort as the number they write, and a greater timestamp makes a greater value. -/
theorem canonicalStringsSortAsValues : Obligations.CanonicalStringsSortAsValues := by
  intro v w
  have hsort : v.toNat < w.toNat →
      List.Lex (fun a b : Byte => a.toNat < b.toNat) (enc32Response v).bytes (enc32Response w).bytes := by
    intro h
    rw [enc32Response_bytes, enc32Response_bytes]
    exact lex_map_encSym_digits32 h (w.isLt.trans (by decide))
  refine ⟨hsort, fun h => hsort ?_⟩
  rw [toNat_timestampOf, toNat_timestampOf] at h
  exact Nat.lt_of_div_lt_div h

/-- Settles O17: the response depends on the normalization alone. -/
theorem equallyNormalizedStringsDecodeAlike : Obligations.EquallyNormalizedStringsDecodeAlike := by
  have hexec : ∀ (a b : List Byte) (s : State), dec32Response a = dec32Response b →
      exec (.dec32 a) s = exec (.dec32 b) s := by
    intro a b s h
    rw [exec_eq, exec_eq, responseOf, responseOf, h]
  exact ⟨fun a b s h => hexec a b s (dec32Response_congr h), fun a s => hexec _ _ s (dec32Response_map_upper a),
    fun a z b s h => hexec _ _ s (dec32Response_append_cons_of_none a z h)⟩

/-- Settles O18: of the three outcomes only the first has the status INVALID_LENGTH. -/
theorem dec32RejectsExactlyTheWrongLengths : Obligations.Dec32RejectsExactlyTheWrongLengths := by
  intro str s u hu
  obtain ⟨t, u', hexec, hu', hr⟩ := exec_answers (.dec32 str) hu
  refine ⟨t, u', _, hexec, hu', hr, ?_, fun h => (responseOf_wellFormed _).noPayload (by rw [h]; decide)⟩
  rw [responseOf]
  rcases dec32Response_cases str with ⟨hlen, hd⟩ | ⟨hlen, -, hd⟩ | ⟨hlen, -, hd⟩ <;> rw [hd]
  · exact iff_of_true rfl hlen
  · exact iff_of_false (by decide) (not_not.2 hlen)
  · exact iff_of_false (by rw [okValue_status]; decide) (not_not.2 hlen)

/-- Settles O19: with 26 symbols only a timestamp half of `2^48` or more has the status INVALID_TIMESTAMP, and its first
symbol decides that. -/
theorem dec32RejectsExactlyTheWideTimestamps : Obligations.Dec32RejectsExactlyTheWideTimestamps := by
  intro str x xs s u hsyms hxs hu
  have hwide : 2 ^ 48 ≤ radix32 ((normSyms str).take 10) ↔ 8 ≤ x.toNat := by
    rw [hsyms, List.take_succ_cons]
    exact two_pow_48_le_radix32_cons_iff x (by rw [List.length_take, hxs]; rfl)
  have hchar : ∀ y : Sym, 8 ≤ y.toNat ↔ encSym y ∈ asciiBytes "89ABCDEFGHJKMNPQRSTVWXYZ" := by decide
  obtain ⟨t, u', hexec, hu', hr⟩ := exec_answers (.dec32 str) hu
  refine ⟨hwide, hchar x, t, u', _, hexec, hu', hr, ?_, fun h => (responseOf_wellFormed _).noPayload (by rw [h]; decide)⟩
  rw [responseOf, ← hwide]
  rcases dec32Response_cases str with ⟨hlen, -⟩ | ⟨-, hts, hd⟩ | ⟨-, hts, hd⟩
  · exact absurd (by rw [hsyms, List.length_cons, hxs]) hlen
  · rw [hd]; exact iff_of_true rfl hts
  · rw [hd]; exact iff_of_false (by rw [okValue_status]; decide) (Nat.not_le.2 hts)

end Sys2Proof.Machine
end

section
/-! SUPPORT. Big-endian byte strings as numbers, and UNPACK128 as the inverse of PACK128 (41_binary_codec.md R102 to R109). -/

namespace Sys2Proof.Machine

/-! ## Big-endian bytes -/

/-- A run of bytes cut in two: the first part stands above the bits of the second (00_scope.md R7). -/
theorem bigEndian_take_add {b : List Byte} {m n : Nat} (h : m + n ≤ b.length) :
    bigEndian (b.take (m + n)) = bigEndian (b.take m) <<< (8 * n) ||| bigEndian ((b.drop m).take n) := by
  have hlen : ((b.drop m).take n).length = n := by rw [List.length_take, List.length_drop]; omega
  have hlt : bigEndian ((b.drop m).take n) < 2 ^ (8 * n) := by
    rw [Nat.pow_mul]
    exact (bigEndian_lt _).trans_eq (by rw [hlen])
  rw [List.take_add, bigEndian_append, hlen, ← Nat.shiftLeft_add_eq_or_of_lt hlt, Nat.shiftLeft_eq, Nat.pow_mul]

/-- Reading byte by byte from the left gives the big-endian number. -/
theorem foldl_eq_bigEndian (b : List Byte) (x : Nat) :
    b.foldl (fun x d => x * 256 + d.toNat) x = x * 256 ^ b.length + bigEndian b := by
  induction b generalizing x with
  | nil => simp [bigEndian]
  | cons d ds ih => rw [List.foldl_cons, ih, bigEndian, List.length_cons]; ring

/-- The first byte decides between strings of the same length, and where it does not the rest does. -/
theorem bigEndian_cons_lt_iff (d e : Byte) {ds es : List Byte} (h : ds.length = es.length) :
    bigEndian (d :: ds) < bigEndian (e :: es) ↔
      d.toNat < e.toNat ∨ d = e ∧ bigEndian ds < bigEndian es := by
  have hds := bigEndian_lt ds
  have hes := bigEndian_lt es
  rw [h] at hds
  rw [bigEndian, bigEndian, h, ← BitVec.toNat_inj]
  rcases Nat.lt_trichotomy d.toNat e.toNat with hlt | heq | hgt
  · have := Nat.mul_le_mul_right (256 ^ es.length) (Nat.succ_le_of_lt hlt)
    grind
  · simp [heq]
  · have := Nat.mul_le_mul_right (256 ^ es.length) (Nat.succ_le_of_lt hgt)
    grind

/-- Strings of one length are ordered as the numbers they write (41_binary_codec.md R104). -/
theorem lex_of_bigEndian_lt {a b : List Byte} (hlen : a.length = b.length) (h : bigEndian a < bigEndian b) :
    List.Lex (fun x y : Byte => x.toNat < y.toNat) a b := by
  induction a generalizing b with
  | nil =>
    rw [List.length_eq_zero_iff.1 hlen.symm] at h
    exact absurd h (Nat.lt_irrefl _)
  | cons d ds ih =>
    obtain _ | ⟨e, es⟩ := b
    · cases hlen
    have htail : ds.length = es.length := Nat.succ.inj hlen
    rcases (bigEndian_cons_lt_iff d e htail).1 h with hlt | ⟨rfl, hlt⟩
    · exact .rel hlt
    · exact .cons (ih htail hlt)

/-- A string is fixed by its length and the number it writes. -/
theorem bigEndian_inj {a b : List Byte} (hlen : a.length = b.length) : bigEndian a = bigEndian b ↔ a = b := by
  refine ⟨fun h => ?_, congrArg bigEndian⟩
  induction a generalizing b with
  | nil => exact (List.length_eq_zero_iff.1 hlen.symm).symm
  | cons d ds ih =>
    obtain _ | ⟨e, es⟩ := b
    · cases hlen
    have htail : ds.length = es.length := Nat.succ.inj hlen
    have hde := (bigEndian_cons_lt_iff d e htail).not.1 h.not_lt
    have hed := (bigEndian_cons_lt_iff e d htail.symm).not.1 h.not_gt
    have hd : d = e := BitVec.eq_of_toNat_eq (by omega)
    rw [hd, bigEndian, bigEndian, htail] at h
    rw [hd, ih htail (Nat.add_left_cancel h)]

/-! ## PACK128 -/

/-- Byte `k` is the lowest byte of the value without its last `120 - 8k` bits (41_binary_codec.md R102). -/
theorem binaryForm_eq_map_div (v : Value) :
    binaryForm v = (List.range 16).map fun k => BitVec.ofNat 8 (v.toNat / 2 ^ (120 - 8 * k)) := by
  refine List.map_congr_left fun k _ => ?_
  rw [← Nat.shiftRight_eq_div_pow]
  rfl

/-- The first six bytes are the timestamp's (41_binary_codec.md R103). -/
theorem take_binaryForm (v : Value) : (binaryForm v).take 6 =
    (List.range 6).map fun k => BitVec.ofNat 8 ((timestampOf v).toNat / 2 ^ (40 - 8 * k)) := by
  rw [binaryForm_eq_map_div, ← List.map_take, toNat_timestampOf, show (List.range 16).take 6 = List.range 6 from rfl]
  refine List.map_congr_left fun k hk => ?_
  have hk := List.mem_range.1 hk
  rw [Nat.div_div_eq_div_mul, ← Nat.pow_add, show 80 + (40 - 8 * k) = 120 - 8 * k by omega]

/-- The last ten bytes are the random part's (41_binary_codec.md R103). -/
theorem drop_binaryForm (v : Value) : (binaryForm v).drop 6 =
    (List.range 10).map fun k => BitVec.ofNat 8 ((randomOf v).toNat / 2 ^ (72 - 8 * k)) := by
  rw [binaryForm_eq_map_div, ← List.map_drop, toNat_randomOf,
    show (List.range 16).drop 6 = (List.range 10).map (6 + ·) from rfl, List.map_map]
  refine List.map_congr_left fun k hk => BitVec.eq_of_toNat_eq ?_
  have hk := List.mem_range.1 hk
  have hcut : 2 ^ 80 = 2 ^ (72 - 8 * k) * 2 ^ (8 * k + 8) := by rw [← Nat.pow_add]; congr 1; omega
  have hbyte : 2 ^ 8 ∣ 2 ^ (8 * k + 8) := Nat.pow_dvd_pow 2 (by omega)
  rw [Function.comp_apply, BitVec.toNat_ofNat, BitVec.toNat_ofNat, show 120 - 8 * (6 + k) = 72 - 8 * k by omega, hcut,
    Nat.mod_mul_right_div_self, Nat.mod_mod_of_dvd _ hbyte]

/-! ## UNPACK128 -/

/-- The first two fields make the number of the timestamp bytes (41_binary_codec.md R101). -/
theorem timestampFields_eq {b : List Byte} (h : b.length = 16) :
    bigEndian (b.take 4) <<< 16 ||| bigEndian ((b.drop 4).take 2) = bigEndian (b.take 6) :=
  (bigEndian_take_add (m := 4) (n := 2) (by omega)).symm

/-- The last three fields make the number of the random bytes (41_binary_codec.md R101). -/
theorem randomFields_eq {b : List Byte} (h : b.length = 16) :
    bigEndian ((b.drop 6).take 2) <<< 64 ||| bigEndian ((b.drop 8).take 4) <<< 32 ||| bigEndian ((b.drop 12).take 4) =
      bigEndian (b.drop 6) := by
  have hlen : (b.drop 6).length = 10 := by rw [List.length_drop]; omega
  have hlow := bigEndian_take_add (b := b.drop 8) (m := 4) (n := 4) (by rw [List.length_drop]; omega)
  have hall := bigEndian_take_add (b := b.drop 6) (m := 2) (n := 8) hlen.ge
  rw [List.drop_drop] at hlow hall
  rw [List.take_of_length_le hlen.le, hlow, ← Nat.or_assoc] at hall
  exact hall.symm

/-- Sixteen bytes give their big-endian number (41_binary_codec.md R106). -/
theorem unpack128Response_of_length_eq {b : List Byte} (h : b.length = 16) :
    unpack128Response b = okValue (BitVec.ofNat 128 (bigEndian b)) := by
  have hlen : (b.drop 6).length = 10 := by rw [List.length_drop]; omega
  have hlt : bigEndian (b.drop 6) < 2 ^ 80 := (bigEndian_lt _).trans_eq (by rw [hlen]; rfl)
  have hval : bigEndian b = bigEndian (b.take 6) * 2 ^ 80 + bigEndian (b.drop 6) := by
    conv_lhs => rw [← List.take_append_drop 6 b, bigEndian_append, hlen]
    rfl
  rw [hval, ← valueOf_ofNat _ hlt, ← timestampFields_eq h, ← randomFields_eq h, unpack128Response, if_neg (not_not.2 h)]

theorem unpack128Response_of_length_ne {b : List Byte} (h : b.length ≠ 16) :
    unpack128Response b = raise .invalidLength := by
  rcases unpack128Response_cases b with ⟨-, hr⟩ | ⟨hlen, -⟩
  · exact hr
  · exact absurd hlen h

/-- INVALID_LENGTH is the status exactly when there are not sixteen bytes (41_binary_codec.md R107). -/
theorem unpack128Response_status_eq_one_iff (b : List Byte) : (unpack128Response b).status = 1#3 ↔ b.length ≠ 16 := by
  rcases unpack128Response_cases b with ⟨hlen, hr⟩ | ⟨hlen, v, hr⟩ <;> rw [hr]
  · exact iff_of_true rfl hlen
  · exact iff_of_false (by rw [okValue_status]; decide) (not_not.2 hlen)

/-- UNPACK128 of the binary form is the value (41_binary_codec.md R109). -/
theorem unpack128Response_binaryForm (v : Value) : unpack128Response (binaryForm v) = okValue v := by
  rw [unpack128Response_of_length_eq (length_binaryForm v), bigEndian_binaryForm, BitVec.ofNat_toNat, BitVec.setWidth_eq]

/-- Sixteen bytes are the binary form of the number they write, since such bytes are unique (41_binary_codec.md R109). -/
theorem binaryForm_bigEndian {b : List Byte} (h : b.length = 16) : binaryForm (BitVec.ofNat 128 (bigEndian b)) = b := by
  have hlt : bigEndian b < 2 ^ 128 := (bigEndian_lt b).trans_eq (by rw [h]; rfl)
  rw [← bigEndian_inj (by rw [length_binaryForm, h]), bigEndian_binaryForm, BitVec.toNat_ofNat, Nat.mod_eq_of_lt hlt]

end Sys2Proof.Machine
end

section
/-! The obligations of 41_binary_codec.md. -/

namespace Sys2Proof.Machine

/-- Settles O26: PACK128 writes the sixteen bytes of the value and UNPACK128 reads their number; bytes of one length that
write one number are the same. -/
theorem binaryCodecRoundTrips : Obligations.BinaryCodecRoundTrips := by
  refine ⟨fun v => ?_, fun b hb => ⟨BitVec.ofNat 128 (bigEndian b), ?_, ?_⟩⟩
  · rw [pack128Response_bytes, unpack128Response_binaryForm]
    exact ⟨rfl, rfl⟩
  · rw [unpack128Response_of_length_eq hb, okValue_outVal]
  · rw [pack128Response_bytes, binaryForm_bigEndian hb]

/-- Settles O8: the sixteen lanes are the bytes of the binary form, cut between the two parts of the value. -/
theorem pack128FollowsItsRule : Obligations.Pack128FollowsItsRule := by
  refine ⟨fun c hb hl => decode_pack128 hl hb, fun v s => ?_, fun v => ?_, by decide, by decide, by decide⟩
  · rw [exec_eq, responseOf, pack128Response, okBytes, outputLanes, length_binaryForm, binaryForm_eq_map_div, List.map_map]
    rfl
  · rw [pack128Response_bytes]
    exact ⟨length_binaryForm v, take_binaryForm v, drop_binaryForm v⟩

/-- Settles O9: sixteen bytes give their big-endian number, any other length the one error; the operand of a command with
`in_len` 16 is its first sixteen lanes. -/
theorem unpack128FollowsItsRule : Obligations.Unpack128FollowsItsRule := by
  refine ⟨fun c hb hl => decode_unpack128 hl hb, fun c _ hl => ?_, fun b s => ?_, fun c d hcb hdb hcl hdl hlanes => ?_,
    by decide, by decide⟩
  · rw [commandResponse_illegal (.inl hl)]; rfl
  · rw [exec_eq, responseOf]
    by_cases hlen : b.length = 16
    · rw [if_pos hlen, unpack128Response_of_length_eq hlen, foldl_eq_bigEndian, Nat.zero_mul, Nat.zero_add]; rfl
    · rw [if_neg hlen, unpack128Response_of_length_ne hlen]; rfl
  · have hcap := Config.twentySeven_le_maxInLen
    have hoperand : c.operandString = d.operandString := by
      rw [Command.operandString, Command.operandString, hcl, hdl, hlanes]
    exact commandResponse_eq_of_decode (decode_unpack128 (by omega) hcb)
      (hoperand ▸ decode_unpack128 (by omega) hdb)

/-- Settles O16: binary forms have one length and write their values. -/
theorem binaryFormsSortAsValues : Obligations.BinaryFormsSortAsValues := by
  intro v w h
  rw [pack128Response_bytes, pack128Response_bytes]
  exact lex_of_bigEndian_lt (by simp) (by rwa [bigEndian_binaryForm, bigEndian_binaryForm])

/-- Settles O25: the operand of a well-formed command has `in_len` bytes. -/
theorem unpack128RejectsExactlyTheWrongLengths : Obligations.Unpack128RejectsExactlyTheWrongLengths := by
  rintro c ⟨-, hlanes⟩ hb hl
  have hlen : c.operandString.length = c.inLen := by
    rw [Command.operandString, List.length_take, hlanes, Nat.min_eq_left hl]
  refine ⟨?_, fun h => (commandResponse_wellFormed c).noPayload (by rw [h]; decide)⟩
  rw [commandResponse_of_decode (decode_unpack128 hl hb), responseOf, unpack128Response_status_eq_one_iff, hlen]

/-- Settles O27: DEC32 reads back what ENC32 writes of the unpacked value, and UNPACK128 what PACK128 writes of any value. -/
theorem serialFormsAgree : Obligations.SerialFormsAgree := by
  refine ⟨fun b hb => ⟨BitVec.ofNat 128 (bigEndian b), ?_, ?_⟩, fun str v _ _ => ?_⟩
  · rw [unpack128Response_of_length_eq hb, okValue_outVal]
  · rw [dec32Response_enc32Response, okValue_outVal]
  · rw [pack128Response_bytes, unpack128Response_binaryForm, okValue_outVal]

end Sys2Proof.Machine
end

section
/-! SUPPORT. The timestamp as TSX answers it and as it stands in both serial forms (42_timestamp_extractor.md R116 to R119). -/

namespace Sys2Proof.Machine

/-- The timestamp is the quotient of the value by `2^80` (42_timestamp_extractor.md R116). -/
theorem timestampOf_eq_ofNat (v : Value) : timestampOf v = BitVec.ofNat 48 (v.toNat / 2 ^ 80) := by
  rw [← toNat_timestampOf, BitVec.ofNat_toNat, BitVec.setWidth_eq]

/-- TSX sees only the timestamp part of a value (42_timestamp_extractor.md R116). -/
theorem tsxResponse_valueOf (ts : Timestamp) (rnd : Random) : tsxResponse (valueOf ts rnd) = okTimestamp ts := by
  rw [tsxResponse, timestampOf_valueOf]

/-- The first six bytes of the binary form are the timestamp (42_timestamp_extractor.md R119 (a)). -/
theorem bigEndian_take_binaryForm (v : Value) : bigEndian ((binaryForm v).take 6) = (timestampOf v).toNat :=
  bigEndian_slice_binaryForm v 0 6 (by decide)

/-- The first ten characters of the canonical string stand for the timestamp's digits (40_base32_codec.md R80). -/
theorem normSyms_take_enc32Response_bytes (v : Value) :
    normSyms ((enc32Response v).bytes.take 10) = digits32 10 (timestampOf v).toNat := by
  rw [enc32Response_bytes, ← List.map_take, normSyms_map_encSym, digits32_halves,
    List.take_left' (length_digits32 _ _)]

/-- Ten digits are enough for a timestamp (40_base32_codec.md R81). -/
theorem radix32_digits32_timestampOf (v : Value) :
    radix32 (digits32 10 (timestampOf v).toNat) = (timestampOf v).toNat := by
  rw [radix32_digits32]
  exact Nat.mod_eq_of_lt ((timestampOf v).isLt.trans (by decide))

/-- After a response that is OK with a value, the sequence goes on with that value (30_encoding.md R64). -/
theorem chainResponses_okValue (v : Value) (second : Value → Instr) :
    chainResponses (okValue v) second = [okValue v, responseOf (second v)] := rfl

end Sys2Proof.Machine
end

section
/-! The obligations of 42_timestamp_extractor.md. -/

namespace Sys2Proof.Machine

/-- Settles O28: both serial forms begin with the timestamp, and decoding either gives the value back to TSX. -/
theorem timestampAgreesWithSerialForms : Obligations.TimestampAgreesWithSerialForms := by
  refine ⟨fun v => ⟨timestampOf v, rfl, ?_, ?_⟩, fun v => ⟨?_, ?_⟩⟩
  · rw [pack128Response_bytes, bigEndian_take_binaryForm]
  · rw [normSyms_take_enc32Response_bytes, radix32_digits32_timestampOf]
  · rw [PseudoOp.responses, pack128Response_bytes, unpack128Response_binaryForm, chainResponses_okValue]
    rfl
  · rw [PseudoOp.responses, dec32Response_enc32Response, chainResponses_okValue]
    rfl

/-- Settles O10: the one field is the quotient by `2^80`, in which the random part has no share. -/
theorem tsxFollowsItsRule : Obligations.TsxFollowsItsRule := by
  refine ⟨fun c hb hl => decode_tsx hl hb, fun v s => ?_, fun ts r r' => ?_, by decide, by decide, by decide, by decide⟩
  · rw [exec_eq, responseOf, tsxResponse, timestampOf_eq_ofNat]
    rfl
  · exact (tsxResponse_valueOf ts r).trans (tsxResponse_valueOf ts r').symm

end Sys2Proof.Machine
end

section
/-! SUPPORT. The status of a command by its cause, and the take that follows an answer (60_exceptions.md R126 to R132). -/

namespace Sys2Proof

/-- The string operand of a command that fits the ports has `in_len` bytes (10_state.md R27). -/
theorem length_operandString {c : Command} (hc : c.WellFormed) (hl : c.inLen ≤ Config.maxInLen) :
    c.operandString.length = c.inLen := by
  obtain ⟨-, hlanes⟩ := hc
  rw [Command.operandString, List.length_take, hlanes, Nat.min_eq_left hl]

namespace Machine

/-! ## Statuses -/

/-- Of 26 symbols the first decides whether the timestamp half fits (40_base32_codec.md R89). -/
theorem exists_head?_two_pow_48_le_iff {ds : List Sym} (h : ds.length = 26) :
    ∃ x, ds.head? = some x ∧ (2 ^ 48 ≤ radix32 (ds.take 10) ↔ 8 ≤ x.toNat) := by
  obtain _ | ⟨x, xs⟩ := ds
  · cases h
  · have hxs : (xs.take 9).length = 9 := by rw [List.length_take, Nat.succ.inj h]; rfl
    exact ⟨x, rfl, two_pow_48_le_radix32_cons_iff x hxs⟩

/-- The status of DEC32: the length check first, then the first of the 26 symbols (40_base32_codec.md R86, R89). -/
theorem dec32Response_status_cases (s : List Byte) :
    ((normSyms s).length ≠ 26 ∧ (dec32Response s).status = 1#3) ∨
    ∃ x, (normSyms s).length = 26 ∧ (normSyms s).head? = some x ∧
      (dec32Response s).status = if 8 ≤ x.toNat then 2#3 else 0#3 := by
  rcases dec32Response_cases s with ⟨hlen, hr⟩ | ⟨hlen, hts, hr⟩ | ⟨hlen, hts, hr⟩
  · exact .inl ⟨hlen, by rw [hr]; rfl⟩
  · obtain ⟨x, hx, hwide⟩ := exists_head?_two_pow_48_le_iff hlen
    exact .inr ⟨x, hlen, hx, by rw [hr, if_pos (hwide.1 hts)]; rfl⟩
  · obtain ⟨x, hx, hwide⟩ := exists_head?_two_pow_48_le_iff hlen
    exact .inr ⟨x, hlen, hx, by rw [hr, if_neg (hwide.not.1 (Nat.not_le.2 hts)), okValue_status]⟩

/-- Each status of DEC32 has its one cause (60_exceptions.md R130). -/
theorem dec32Response_status_iff (s : List Byte) :
    ((dec32Response s).status = 0#3 ↔ (normSyms s).length = 26 ∧ ∀ x ∈ (normSyms s).head?, x.toNat < 8) ∧
    ((dec32Response s).status = 1#3 ↔ (normSyms s).length ≠ 26) ∧
    ((dec32Response s).status = 2#3 ↔ (normSyms s).length = 26 ∧ ∀ x ∈ (normSyms s).head?, 8 ≤ x.toNat) := by
  rcases dec32Response_status_cases s with ⟨hlen, hs⟩ | ⟨x, hlen, hx, hs⟩
  · simp [hlen, hs]
  · by_cases hwide : 8 ≤ x.toNat
    · simp [hlen, hx, hs, hwide]
    · simp [hlen, hx, hs, hwide, Nat.not_le.1 hwide]

/-- UNPACK128 is OK exactly when there are sixteen bytes (41_binary_codec.md R106, R107). -/
theorem unpack128Response_status_eq_zero_iff (b : List Byte) : (unpack128Response b).status = 0#3 ↔ b.length = 16 := by
  rcases unpack128Response_cases b with ⟨hlen, hr⟩ | ⟨hlen, v, hr⟩ <;> rw [hr]
  · exact iff_of_false (by decide) hlen
  · exact iff_of_true rfl hlen

/-- No operation has the status ILLEGAL_COMMAND (60_exceptions.md R126, R127). -/
theorem responseOf_status_ne_three (i : Instr) : (responseOf i).status ≠ 3#3 := by
  cases i with
  | enc32 v => nofun
  | dec32 s =>
    rcases dec32Response_cases s with ⟨-, h⟩ | ⟨-, -, h⟩ | ⟨-, -, h⟩ <;> rw [responseOf, h]
    · decide
    · decide
    · rw [okValue_status]; decide
  | pack128 v => nofun
  | unpack128 b =>
    rcases unpack128Response_cases b with ⟨-, h⟩ | ⟨-, v, h⟩ <;> rw [responseOf, h]
    · decide
    · rw [okValue_status]; decide
  | tsx v => nofun

/-- ILLEGAL_COMMAND is the status of exactly the illegal commands (60_exceptions.md R127). -/
theorem commandResponse_status_eq_three_iff (c : Command) :
    (commandResponse c).status = 3#3 ↔ Config.maxInLen < c.inLen ∨ c.cmd.toNat = 0 ∨ 5 < c.cmd.toNat := by
  refine ⟨fun h => ?_, fun h => by rw [commandResponse_illegal h]; rfl⟩
  rcases commandResponse_cases c with ⟨-, hr⟩ | ⟨-, hr⟩ | ⟨-, hr⟩ | ⟨-, hr⟩ | ⟨-, hr⟩ | ⟨hill, -⟩
  · exact absurd (hr ▸ h) (responseOf_status_ne_three (.enc32 _))
  · exact absurd (hr ▸ h) (responseOf_status_ne_three (.dec32 _))
  · exact absurd (hr ▸ h) (responseOf_status_ne_three (.pack128 _))
  · exact absurd (hr ▸ h) (responseOf_status_ne_three (.unpack128 _))
  · exact absurd (hr ▸ h) (responseOf_status_ne_three (.tsx _))
  · exact hill

/-! ## An answer and its take -/

theorem take_of_response {u : Codec} {r : Response} (hr : u.inReset = false) (hp : u.response = some r) :
    u.take = { u with response := none, taken := u.taken ++ [r] } := by
  simp only [Codec.take, hr, hp]

/-- A scheduled take of a response that waits (70_reset_and_hazards.md R150). -/
theorem step_take {s : State} {k : Nat} {rest : List (Nat × Move)} {u : Codec} {r : Response}
    (hs : s.schedule = (k, .take) :: rest) (hu : s.codecs[k]? = some u)
    (hr : u.inReset = false) (hp : u.response = some r) :
    step s = .next { s with
      codecs := s.codecs.set k { u with response := none, taken := u.taken ++ [r] }, schedule := rest } := by
  rw [step_at hs hu, ← take_of_response hr hp]
  rfl

/-- An answer and its take move the oldest command's response to the host, and leave the rest as it was. -/
theorem reaches_answer_take {s : State} {k : Nat} {rest : List (Nat × Move)} {u : Codec} {c : Command} {q : List Command}
    (hs : s.schedule = (k, .answer) :: (k, .take) :: rest) (hu : s.codecs[k]? = some u)
    (hr : u.inReset = false) (hp : u.response = none) (hq : u.queue = c :: q) :
    s.Reaches 2 { codecs := s.codecs.set k { u with queue := q, taken := u.taken ++ [commandResponse c] },
                  turn := k, schedule := rest } := by
  have htake := step_take
    (s := { codecs := s.codecs.set k { u with queue := q, response := some (commandResponse c) },
            turn := k, schedule := (k, .take) :: rest })
    rfl ((getElem?_set_codec hu).trans (if_pos rfl)) hr rfl
  rw [List.set_set, ← hp] at htake
  exact reaches_succ (step_answer hs hu hr hp hq) (reaches_succ htake (reaches_zero _))

end Machine
end Sys2Proof
end

section
/-! The obligations of 60_exceptions.md. -/

namespace Sys2Proof.Machine

/-- Settles O32: each byte's operation has the statuses that its own cases give it. -/
theorem everyCommandHasItsOneStatus : Obligations.EveryCommandHasItsOneStatus := by
  refine fun c hc => ⟨commandResponse_status_eq_three_iff c, fun hl hb => ?_, fun hl hb => ?_, fun hl hb => ?_⟩
  · rcases hb with hb | hb | hb
    · rw [commandResponse_of_decode (decode_enc32 hl hb)]; rfl
    · rw [commandResponse_of_decode (decode_pack128 hl hb)]; rfl
    · rw [commandResponse_of_decode (decode_tsx hl hb)]; rfl
  · rw [commandResponse_of_decode (decode_dec32 hl hb)]
    exact dec32Response_status_iff c.operandString
  · rw [commandResponse_of_decode (decode_unpack128 hl hb), responseOf, unpack128Response_status_eq_zero_iff,
      unpack128Response_status_eq_one_iff, length_operandString hc hl]
    exact ⟨Iff.rfl, Iff.rfl⟩

/-- Settles O37: the step answers with `raise .illegalCommand`. -/
theorem illegalCommandsGetOnlyTheirStatus : Obligations.IllegalCommandsGetOnlyTheirStatus := by
  intro s k rest u c q hs hu hr hp hq hill
  rw [step_answer hs hu hr hp hq, commandResponse_illegal hill]
  rfl

/-- Settles O38: only an OK response has a payload, and the answer and its take write nothing but the queue and the
host's list. -/
theorem errorsLeaveNoTrace : Obligations.ErrorsLeaveNoTrace := by
  intro s k rest u c q hs hu hr hp hq hstatus
  exact ⟨(commandResponse_wellFormed c).noPayload hstatus, reaches_answer_take hs hu hr hp hq⟩

end Sys2Proof.Machine
end

section
/-! SUPPORT. What a move makes of the instance it is made at, as a function of that instance alone, and what it holds
afterwards (70_reset_and_hazards.md R145 to R151). -/

namespace Sys2Proof.Machine

/-- The instance after its answer: the oldest command's response is presented, if the instance can answer. -/
def Codec.afterAnswer (u : Codec) : Codec :=
  match u.canAnswer, u.queue with
  | true, c :: q => { u with queue := q, response := some (commandResponse c) }
  | _, _ => u

/-- The instance after a move at which the machine goes on. -/
def Codec.after (u : Codec) : Move → Codec
  | .offer c => u.offer c
  | .answer => u.afterAnswer
  | .take => u.take
  | .assertReset => u.assertReset
  | .releaseReset => u.releaseReset
  | .forward cmd => ((u.presents (.forward cmd)).map u.offer).getD u
  | .read _ | .branchOk _ => u

theorem afterAnswer_ready {u : Codec} {c : Command} {q : List Command}
    (hr : u.inReset = false) (hp : u.response = none) (hq : u.queue = c :: q) :
    u.afterAnswer = { u with queue := q, response := some (commandResponse c) } := by
  have hc : u.canAnswer = true := (canAnswer_iff u).2 ⟨hr, hp, by simp [hq]⟩
  simp only [Codec.afterAnswer, hc, hq]

theorem afterAnswer_blocked {u : Codec} (h : u.canAnswer = false) : u.afterAnswer = u := by
  simp [Codec.afterAnswer, h]

/-- What an answer makes of the instance. -/
theorem afterAnswer_cases (u : Codec) :
    u.afterAnswer = u ∨ ∃ c q, u.response = none ∧ u.queue = c :: q ∧
      u.afterAnswer = { u with queue := q, response := some (commandResponse c) } := by
  cases h : u.canAnswer with
  | false => exact .inl (afterAnswer_blocked h)
  | true =>
    obtain ⟨hr, hp, hq⟩ := (canAnswer_iff u).1 h
    obtain ⟨c, q, hcq⟩ := List.exists_cons_of_ne_nil hq
    exact .inr ⟨c, q, hp, hcq, afterAnswer_ready hr hp hcq⟩

/-- A command is presented by an offer of it, or by a forward of the last `out_val` taken. -/
theorem presents_eq_some_iff {u : Codec} {m : Move} {c : Command} :
    u.presents m = some c ↔ m = .offer c ∨
      ∃ cmd v, m = .forward cmd ∧ u.lastTaken.bind Response.outVal = some v ∧ valueCommand cmd v = c := by
  cases m <;> simp [Codec.presents, -Option.map_bind, Option.map_eq_some_iff]

/-- What the move makes of the instance: the command it presents is offered; or it is a move on a channel or on the reset
input; or the instance stays as it is. -/
theorem after_cases (u : Codec) (m : Move) :
    (∃ c, u.presents m = some c ∧ u.after m = u.offer c) ∨
    (m = .answer ∧ u.after m = u.afterAnswer) ∨ (m = .take ∧ u.after m = u.take) ∨
    (m = .assertReset ∧ u.after m = u.assertReset) ∨ (m = .releaseReset ∧ u.after m = u.releaseReset) ∨
    (m ≠ .assertReset ∧ m ≠ .releaseReset ∧ u.after m = u) := by
  cases m with
  | forward cmd => cases h : u.presents (.forward cmd) <;> simp [Codec.after, h]
  | _ => simp [Codec.after, Codec.presents]

/-! ## The machine's moves and steps act on an instance as `Codec.after` does -/

/-- A move replaces its instance by what `Codec.after` says, and leaves every other as it was. -/
theorem act_codecs {k : Nat} {m : Move} {s t : State} (h : act k m s = .next t) :
    ∃ u, s.codecs[k]? = some u ∧ t.codecs = s.codecs.set k (u.after m) := by
  obtain ⟨u, hu, hcases⟩ := act_cases h
  refine ⟨u, hu, ?_⟩
  have hself : s.codecs.set k u = s.codecs := by
    obtain ⟨hk, rfl⟩ := List.getElem?_eq_some_iff.1 hu
    exact List.set_getElem_self hk
  rcases hcases with ⟨c, rfl, rfl⟩ | ⟨rfl, hc, rfl⟩ | ⟨rfl, c, q, hr, hp, hq, rfl⟩ | ⟨rfl, rfl⟩ | ⟨rfl, rfl⟩ |
    ⟨rfl, rfl⟩ | ⟨f, r, rfl, -, -, rfl⟩ | ⟨cmd, v, rfl, hv, rfl⟩ | ⟨n, r, st, rfl, -, -, rfl⟩
  · rfl
  · rw [Codec.after, afterAnswer_blocked hc, hself]
  · rw [Codec.after, afterAnswer_ready hr hp hq]
  · rfl
  · rfl
  · rfl
  · exact hself.symm
  · simp [Codec.after, Codec.presents, hv]
  · split <;> exact hself.symm

/-- Instance `k` after a move at instance `j`. -/
theorem act_getElem? {j k : Nat} {m : Move} {s t : State} {u : Codec}
    (h : act j m s = .next t) (hu : s.codecs[k]? = some u) :
    t.codecs[k]? = if j = k then some (u.after m) else some u := by
  obtain ⟨w, hw, ht⟩ := act_codecs h
  rw [ht, getElem?_set_codec hu]
  split
  · rename_i hjk
    subst hjk
    rw [Option.some.inj (hw.symm.trans hu)]
  · rfl

/-- What a step makes of instance `k`: what the scheduled move at it does; or, with no such move, an answer or nothing. -/
theorem step_getElem? {s t : State} {k : Nat} {u : Codec} (h : step s = .next t) (hu : s.codecs[k]? = some u) :
    (∃ m, s.schedule.head? = some (k, m) ∧ t.codecs[k]? = some (u.after m)) ∨
    ((∀ m, s.schedule.head? ≠ some (k, m)) ∧ (t.codecs[k]? = some u ∨ t.codecs[k]? = some u.afterAnswer)) := by
  rcases step_cases h with ⟨j, m, rest, hs, ha⟩ | ⟨hs, -, rfl⟩ | ⟨j, hs, -, ha⟩
  · have ht := act_getElem? ha hu
    by_cases hj : j = k
    · subst hj; exact .inl ⟨m, by simp [hs], by simpa using ht⟩
    · exact .inr ⟨by simp [hs, hj], .inl (by simpa [hj] using ht)⟩
  · exact .inr ⟨by simp [hs], .inl hu⟩
  · have ht := act_getElem? ha hu
    refine .inr ⟨by simp [hs], ?_⟩
    by_cases hj : j = k
    · exact .inr (by simpa [hj, Codec.after] using ht)
    · exact .inl (by simpa [hj] using ht)

/-! ## While reset is asserted -/

theorem cmdReady_inReset {u : Codec} (hr : u.inReset = true) : u.cmdReady = false := by simp [Codec.cmdReady, hr]

theorem canAnswer_inReset {u : Codec} (hr : u.inReset = true) : u.canAnswer = false := by simp [Codec.canAnswer, hr]

/-- No response is delivered while reset is asserted. -/
theorem take_inReset {u : Codec} (hr : u.inReset = true) : u.take = u := by simp [Codec.take, hr]

/-- No command is accepted while reset is asserted. -/
theorem offer_queue_inReset {u : Codec} (hr : u.inReset = true) (c : Command) : (u.offer c).queue = u.queue := by
  simp [offer_queue, cmdReady_inReset hr]

/-- In reset no move gives the instance anything to hold, or the host a response, and only a release ends the reset. -/
theorem after_inReset {u : Codec} (hr : u.inReset = true) (hq : u.queue = []) (hp : u.response = none) (m : Move) :
    (u.after m).queue = [] ∧ (u.after m).response = none ∧ (u.after m).taken = u.taken ∧
      ((u.after m).inReset = false ↔ m = .releaseReset) := by
  rcases after_cases u m with ⟨c, hc, h⟩ | ⟨rfl, h⟩ | ⟨rfl, h⟩ | ⟨rfl, h⟩ | ⟨rfl, h⟩ | ⟨-, hm, h⟩ <;> rw [h]
  · have hm : m ≠ .releaseReset := by rintro rfl; cases hc
    simp [offer_queue_inReset hr, hq, hp, hr, hm]
  · simp [afterAnswer_blocked (canAnswer_inReset hr), hq, hp, hr]
  · simp [take_inReset hr, hq, hp, hr]
  · simp
  · simp [hq, hp]
  · simp [hq, hp, hr, hm]

/-! ## The responses taken, waiting and owed -/

/-- An accepted command adds its response at the end of what is owed. -/
theorem offer_history (u : Codec) (c : Command) :
    (u.offer c).history = if u.cmdReady then u.history ++ [commandResponse c] else u.history := by
  unfold Codec.history
  rw [offer_queue]
  split <;> simp

/-- An answer moves the first response owed to the channel. -/
theorem afterAnswer_history (u : Codec) : u.afterAnswer.history = u.history := by
  rcases afterAnswer_cases u with h | ⟨c, q, hp, hq, h⟩ <;> rw [h]
  simp [Codec.history, hp, hq]

/-- A take moves the waiting response to the host's list. -/
theorem take_history (u : Codec) : u.take.history = u.history := by
  rcases take_cases u with ⟨r, -, hp, h⟩ | ⟨-, h⟩ <;> rw [h]
  simp [Codec.history, hp]

/-- Only an accepted command adds to the history (70_reset_and_hazards.md R150). -/
theorem after_history (u : Codec) {m : Move} (hm : m ≠ .assertReset) :
    (u.after m).history = u.history ∨
      ∃ c, u.presents m = some c ∧ u.cmdReady = true ∧ (u.after m).history = u.history ++ [commandResponse c] := by
  rcases after_cases u m with ⟨c, hc, h⟩ | ⟨-, h⟩ | ⟨-, h⟩ | ⟨ha, -⟩ | ⟨-, h⟩ | ⟨-, -, h⟩
  · rw [h, offer_history]
    split
    · exact .inr ⟨c, hc, ‹_›, rfl⟩
    · exact .inl rfl
  · exact .inl (h ▸ afterAnswer_history u)
  · exact .inl (h ▸ take_history u)
  · exact absurd ha hm
  · exact .inl (by rw [h]; rfl)
  · exact .inl (by rw [h])

/-- An answer delivers nothing to the host. -/
@[simp] theorem afterAnswer_taken (u : Codec) : u.afterAnswer.taken = u.taken := by
  rcases afterAnswer_cases u with h | ⟨c, q, -, -, h⟩ <;> rw [h]

/-- While a response waits no other is presented. -/
theorem afterAnswer_of_response {u : Codec} {r : Response} (hp : u.response = some r) : u.afterAnswer = u :=
  afterAnswer_blocked (by simp [Codec.canAnswer, hp])

/-- A waiting response stays, unless the host takes it. -/
theorem after_of_response {u : Codec} {r : Response} (hp : u.response = some r) {m : Move} (hm : m ≠ .assertReset) :
    ((u.after m).response = some r ∧ (u.after m).taken = u.taken) ∨
      (m = .take ∧ (u.after m).response = none ∧ (u.after m).taken = u.taken ++ [r]) := by
  rcases after_cases u m with ⟨c, -, h⟩ | ⟨-, h⟩ | ⟨rfl, h⟩ | ⟨ha, -⟩ | ⟨-, h⟩ | ⟨-, -, h⟩
  · exact .inl (by simp [h, hp])
  · exact .inl (by simp [h, afterAnswer_of_response hp, hp])
  · cases hr : u.inReset with
    | false => exact .inr ⟨rfl, by simp [h, take_of_response hr hp]⟩
    | true => exact .inl (by simp [h, take_inReset hr, hp])
  · exact absurd ha hm
  · exact .inl (by simp [h, hp])
  · exact .inl (by simp [h, hp])

/-- With no response waiting the host gets nothing. -/
theorem after_taken_of_no_response {u : Codec} (hp : u.response = none) (m : Move) : (u.after m).taken = u.taken := by
  have htake : u.take = u := by simp [Codec.take, hp]
  rcases after_cases u m with ⟨c, -, h⟩ | ⟨-, h⟩ | ⟨-, h⟩ | ⟨-, h⟩ | ⟨-, h⟩ | ⟨-, -, h⟩ <;> simp [h, htake]

end Sys2Proof.Machine
end

section
/-! The obligations of 70_reset_and_hazards.md. -/

namespace Sys2Proof.Machine

/-- Settles O42: a step at the instance is one of its moves, and of these only an accepted command adds to its history, and
only a take moves its waiting response. -/
theorem responsesKeepAcceptanceOrder : Obligations.ResponsesKeepAcceptanceOrder := by
  refine ⟨fun s t k u hu h hassert => ?_, fun s k rest u c q hs hu hr hp hq => step_answer hs hu hr hp hq⟩
  rcases step_getElem? h hu with ⟨m, hs, ht⟩ | ⟨-, ht | ht⟩
  · have hm : m ≠ .assertReset := by rintro rfl; exact hassert hs
    refine ⟨_, ht, ?_, fun r hp => ?_, fun hp => after_taken_of_no_response hp m⟩
    · rcases after_history u hm with hh | ⟨c, hc, hready, hh⟩
      · exact .inl hh
      · refine .inr ⟨c, hready, hh, ?_⟩
        rcases presents_eq_some_iff.1 hc with rfl | ⟨cmd, v, rfl, hv, rfl⟩
        · exact .inl hs
        · exact .inr ⟨cmd, v, hs, rfl, rfl, hv⟩
    · simpa [hs] using after_of_response hp hm
  · exact ⟨u, ht, .inl rfl, fun r hp => .inl ⟨hp, rfl⟩, fun _ => rfl⟩
  · refine ⟨_, ht, .inl (afterAnswer_history u), fun r hp => .inl ?_, fun _ => afterAnswer_taken u⟩
    rw [afterAnswer_of_response hp]
    exact ⟨hp, rfl⟩

/-- Settles O40: a move at the instance is `after_inReset`, and any other step leaves it as it is, since it cannot
answer. -/
theorem nothingHappensDuringReset : Obligations.NothingHappensDuringReset := by
  intro s t k u hu hr hq hp h
  rcases step_getElem? h hu with ⟨m, hs, ht⟩ | ⟨hs, ht⟩
  · refine ⟨_, ht, ?_⟩
    simpa [hs] using after_inReset hr hq hp m
  · rw [afterAnswer_blocked (canAnswer_inReset hr), or_self] at ht
    exact ⟨u, ht, hq, hp, rfl, by simp [hr, hs]⟩

end Sys2Proof.Machine
end

section
/-! SUPPORT. The encoder against the decoder, and the written values and texts (30_encoding.md R56, R60, R63). -/

namespace Sys2Proof

/-- The lanes below `in_len` of the command that carries a string are the string (20_memory.md R42). -/
@[simp] theorem operandString_stringCommand (cmd : Byte) (s : List Byte) : (stringCommand cmd s).operandString = s :=
  List.take_left' rfl

/-- The encoder's command decodes to the operation it presents. -/
theorem decode_encode {i : Instr} (h : i.WellFormed) : decode (encode i) = .ok i := by
  cases i with
  | enc32 v => exact decode_enc32 (Nat.zero_le _) rfl
  | dec32 s => exact (decode_dec32 h rfl).trans (by rw [encode, operandString_stringCommand])
  | pack128 v => exact decode_pack128 (Nat.zero_le _) rfl
  | unpack128 b => exact (decode_unpack128 h rfl).trans (by rw [encode, operandString_stringCommand])
  | tsx v => exact decode_tsx (Nat.zero_le _) rfl

/-- A command that decodes has no more significant lanes than there are (60_exceptions.md R127 (b)). -/
theorem inLen_le_of_decode {c : Command} {i : Instr} (h : decode c = .ok i) : c.inLen ≤ Config.maxInLen := by
  by_contra hl
  obtain ⟨e, he⟩ := decode_illegal (.inl (Nat.not_le.1 hl))
  rw [he] at h
  cases h

/-- The command that presents a legal command's string operand has its length and its significant lanes. -/
theorem stringCommand_operandString {c : Command} (hc : c.WellFormed) (hl : c.inLen ≤ Config.maxInLen) :
    (stringCommand c.cmd c.operandString).inLen = c.inLen ∧
      (stringCommand c.cmd c.operandString).inBytes.take c.inLen = c.inBytes.take c.inLen :=
  ⟨length_operandString hc hl, List.take_left' (length_operandString hc hl)⟩

/-- One more hexadecimal digit, where four bits are free (30_encoding.md R63). -/
theorem toNat_shift_or_digit {v : Value} (h : v.toNat < 2 ^ 124) (d : BitVec 4) :
    ((v <<< 4) ||| d.zeroExtend 128).toNat = v.toNat * 16 + d.toNat := by
  have hshift : v.toNat <<< 4 < 2 ^ 128 := by rw [Nat.shiftLeft_eq]; omega
  rw [BitVec.toNat_or, BitVec.toNat_shiftLeft, Nat.mod_eq_of_lt hshift, BitVec.zeroExtend_eq_setWidth,
    BitVec.toNat_setWidth_of_le (by decide), ← Nat.shiftLeft_add_eq_or_of_lt d.isLt, Nat.shiftLeft_eq]

/-- The digits that follow a number of `m` digits, as long as there are at most 32 in all. -/
theorem toNat_foldl_hex (hex : List (BitVec 4)) {v : Value} {m : Nat} (hv : v.toNat < 16 ^ m) (hm : m + hex.length ≤ 32) :
    (hex.foldl (fun (v : Value) d => (v <<< 4) ||| d.zeroExtend 128) v).toNat =
      hex.foldl (fun x d => x * 16 + d.toNat) v.toNat := by
  induction hex generalizing v m with
  | nil => rfl
  | cons d ds ih =>
    rw [List.length_cons] at hm
    have hfree : v.toNat < 2 ^ 124 := hv.trans_le (Nat.pow_le_pow_right (n := 16) (by decide) (by omega : m ≤ 31))
    have hstep := toNat_shift_or_digit hfree d
    have hnext : ((v <<< 4) ||| d.zeroExtend 128).toNat < 16 ^ (m + 1) := by
      have hd := d.isLt
      rw [hstep, Nat.pow_succ]
      omega
    rw [List.foldl_cons, List.foldl_cons, ih hnext (by omega), hstep]

@[simp] theorem length_asciiBytes (text : String) : (asciiBytes text).length = text.toList.length := List.length_map _

/-- An ASCII text is the bytes of its characters' codes (92_eei_decisions.md D8). -/
theorem map_toNat_asciiBytes {text : String} (h : ∀ ch ∈ text.toList, ch.toNat < 128) :
    (asciiBytes text).map BitVec.toNat = text.toList.map Char.toNat := by
  rw [asciiBytes, List.map_map]
  refine List.map_congr_left fun ch hch => ?_
  have hlt := h ch hch
  rw [Function.comp_apply, BitVec.toNat_ofNat]
  omega

end Sys2Proof
end

section
/-! The obligations of 30_encoding.md on the encoder and the written forms. -/

namespace Sys2Proof

/-- Settles O3, by the decoder's equation at each operation's byte. -/
theorem decodeOfEncodeIsTheOperation : Obligations.DecodeOfEncodeIsTheOperation := fun _ => decode_encode

/-- Settles O4: the assigned byte names the operation, and the encoder drives the operand that the decoder has read. -/
theorem encodeOfDecodeAgreesOnTheReadFields : Obligations.EncodeOfDecodeAgreesOnTheReadFields := by
  intro c i hc h
  have hl := inLen_le_of_decode h
  have hfits : c.operandString.length ≤ Config.maxInLen := (length_operandString hc hl).trans_le hl
  have hlanes := stringCommand_operandString hc hl
  rcases cmd_assigned_of_decode h with hb | hb | hb | hb | hb
  · cases h.symm.trans (decode_enc32 hl hb)
    exact ⟨trivial, hb.symm, fun _ => rfl, by simp [hb]⟩
  · cases h.symm.trans (decode_dec32 hl hb)
    exact ⟨hfits, hb.symm, by simp [hb], fun _ => hlanes⟩
  · cases h.symm.trans (decode_pack128 hl hb)
    exact ⟨trivial, hb.symm, fun _ => rfl, by simp [hb]⟩
  · cases h.symm.trans (decode_unpack128 hl hb)
    exact ⟨hfits, hb.symm, by simp [hb], fun _ => hlanes⟩
  · cases h.symm.trans (decode_tsx hl hb)
    exact ⟨trivial, hb.symm, fun _ => rfl, by simp [hb]⟩

/-- Settles O5: every form but the raw one assembles to the encoder's command, and 32 digits fill the value. -/
theorem writtenFormsDecodeToTheirOperations : Obligations.WrittenFormsDecodeToTheirOperations := by
  refine ⟨fun hex hlen => ⟨?_, decode_encode trivial, decode_encode trivial, decode_encode trivial⟩,
    fun bs hlen => ⟨decode_encode hlen, decode_encode hlen⟩, fun text hlen hascii => ?_, fun c => rfl⟩
  · exact toNat_foldl_hex hex (v := 0#128) (m := 0) (by decide) (by omega)
  · exact ⟨asciiBytes text, decode_encode ((length_asciiBytes text).trans_le hlen), map_toNat_asciiBytes hascii⟩

end Sys2Proof
end

section
/-! The obligations of 40_base32_codec.md on strings of 26 symbols. -/

namespace Sys2Proof.Machine

/-- A number of 26 symbols is its timestamp half above its random half (40_base32_codec.md R83). -/
theorem radix32_halves {ds : List Sym} (h : ds.length = 26) :
    radix32 ds = radix32 (ds.take 10) * 2 ^ 80 + radix32 (ds.drop 10) := by
  conv_lhs => rw [← List.take_append_drop 10 ds, radix32_append, List.length_drop, h]
  rfl

/-- Settles O20: sixteen symbols are 80 bits, and only the second of the two outcomes has a wide timestamp half. -/
theorem randomHalfNeverOverflows : Obligations.RandomHalfNeverOverflows := by
  refine ⟨fun ds hlen => (radix32_lt ds).trans_eq (by rw [hlen]; rfl), fun str hlen => ⟨radix32_drop_lt hlen, ?_⟩⟩
  rcases dec32Response_cases str with ⟨hne, -⟩ | ⟨-, hts, hr⟩ | ⟨-, hts, hr⟩
  · exact absurd hlen hne
  · rw [hr, if_pos hts]; rfl
  · rw [hr, if_neg (Nat.not_le.2 hts), okValue_status]

/-- Settles O21: a first symbol below 8 leaves only the OK outcome, whose two halves make the whole number. -/
theorem dec32CompletesWithTheWholeRadixValue : Obligations.Dec32CompletesWithTheWholeRadixValue := by
  intro str x xs s hsyms hxs hx
  have hlen : (normSyms str).length = 26 := by rw [hsyms, List.length_cons, hxs]
  have hnarrow : radix32 ((normSyms str).take 10) < 2 ^ 48 := by
    rw [hsyms, List.take_succ_cons, ← Nat.not_le,
      two_pow_48_le_radix32_cons_iff x (by rw [List.length_take, hxs]; rfl)]
    exact Nat.not_le.2 hx
  have hrandom := radix32_drop_lt hlen
  have hhalves := radix32_halves hlen
  refine ⟨by omega, ?_⟩
  rcases dec32Response_cases str with ⟨hne, -⟩ | ⟨-, hwide, -⟩ | ⟨-, -, hr⟩
  · exact absurd hlen hne
  · exact absurd hnarrow (Nat.not_lt.2 hwide)
  · rw [exec_eq, responseOf, hr, valueOf_ofNat _ hrandom, ← hhalves]; rfl

end Sys2Proof.Machine
end

section
/-! SUPPORT. What one move does to the whole machine, as a function of the codec it is made at: whether it faults, and what it
makes of that codec and of the schedule (10_state.md R33, 30_encoding.md R64, 60_exceptions.md R134). -/

namespace Sys2Proof.Machine

/-! ## The host's forward and branch -/

theorem forward_of_value {s : State} {k : Nat} {u : Codec} {cmd : Byte} {v : Value}
    (h : u.lastTaken.bind Response.outVal = some v) :
    s.forward k u cmd = .next (s.setCodec k (u.offer (valueCommand cmd v))) := by
  simp only [State.forward, h]

theorem branchOk_of_ok {s : State} {k : Nat} {u : Codec} {n : Nat} {r : Response} (h : u.lastTaken = some r)
    (hr : Status.ofCode r.status = some .ok) : s.branchOk k u n = .next s := by
  simp only [State.branchOk, h, hr]

theorem branchOk_of_error {s : State} {k : Nat} {u : Codec} {n : Nat} {r : Response} {e : Status} (h : u.lastTaken = some r)
    (hr : Status.ofCode r.status = some e) (he : e ≠ .ok) :
    s.branchOk k u n = .next { s with schedule := skipMoves k n s.schedule } := by
  cases e with
  | ok => exact absurd rfl he
  | _ => simp only [State.branchOk, h, hr]

theorem branchOk_of_undefined {s : State} {k : Nat} {u : Codec} {n : Nat} {r : Response} (h : u.lastTaken = some r)
    (hr : Status.ofCode r.status = none) : s.branchOk k u n = .fault .undefinedStatus := by
  simp only [State.branchOk, h, hr]

/-- A status code has a meaning exactly when it is below 4 (10_state.md R31). -/
theorem ofCode_isSome_iff : ∀ b : BitVec 3, (Status.ofCode b).isSome = true ↔ b.toNat < 4 := by decide

/-! ## One move -/

/-- The fault of a move at this codec, if it is one: a host's read, forward or branch (10_state.md R33, R39;
93_implementation_defined.md). -/
def Codec.faultOf (u : Codec) (m : Move) : Option Fault :=
  match m, u.lastTaken with
  | .read f, some r => if r.defines f then none else some .undefinedField
  | .forward _, some r => if r.outVal.isSome then none else some .undefinedField
  | .branchOk _, some r => if r.status.toNat < 4 then none else some .undefinedStatus
  | .read _, none | .forward _, none | .branchOk _, none => some .undefinedField
  | _, _ => none

/-- How many of the next moves at this codec a move leaves out (30_encoding.md R64). -/
def Codec.leavesOut (u : Codec) : Move → Nat
  | .branchOk n => if u.lastTaken.bind (fun r => Status.ofCode r.status) = some .ok then 0 else n
  | _ => 0

theorem set_codec_self {cs : List Codec} {k : Nat} {u : Codec} (hu : cs[k]? = some u) : cs.set k u = cs := by
  obtain ⟨hk, rfl⟩ := List.getElem?_eq_some_iff.1 hu
  exact List.set_getElem_self hk

/-- A move goes on, unless it has a fault: it replaces its codec, may take the turn, and may leave out moves at that codec. -/
theorem act_of_faultOf {k : Nat} (m : Move) {s : State} {u : Codec} (hu : s.codecs[k]? = some u) :
    (∃ f, u.faultOf m = some f ∧ act k m s = .fault f) ∨
    (u.faultOf m = none ∧ ∃ turn, (turn = s.turn ∨ turn = k) ∧ act k m s = .next
      { codecs := s.codecs.set k (u.after m), turn := turn, schedule := skipMoves k (u.leavesOut m) s.schedule }) := by
  have hself := set_codec_self hu
  rw [act_of_some m hu, actOn.eq_def]
  cases m with
  | answer =>
    refine .inr ⟨rfl, ?_⟩
    rcases answer_cases k u s with ⟨hc, ha⟩ | ⟨c, q, hr, hp, hq, ha⟩
    · exact ⟨s.turn, .inl rfl, by simp [ha, Codec.after, afterAnswer_blocked hc, hself, Codec.leavesOut]⟩
    · exact ⟨k, .inr rfl, by simp [ha, Codec.after, afterAnswer_ready hr hp hq, Codec.leavesOut]⟩
  | read f =>
    cases hr : u.lastTaken with
    | none => exact .inl ⟨_, by simp only [Codec.faultOf, hr], readField_of_none hr⟩
    | some r =>
      simp only [readField_of_taken hr, Codec.faultOf, hr]
      cases hd : r.defines f with
      | false => exact .inl ⟨_, rfl, rfl⟩
      | true => exact .inr ⟨rfl, s.turn, .inl rfl, by simp [Codec.after, hself, Codec.leavesOut]⟩
  | forward cmd =>
    cases hr : u.lastTaken with
    | none => exact .inl ⟨_, by simp only [Codec.faultOf, hr], forward_without_value (by rw [hr]; rfl)⟩
    | some r =>
      simp only [Codec.faultOf, hr]
      cases hv : r.outVal with
      | none => exact .inl ⟨_, rfl, forward_without_value (by rw [hr]; exact hv)⟩
      | some v =>
        have hbind : u.lastTaken.bind Response.outVal = some v := by rw [hr]; exact hv
        refine .inr ⟨rfl, s.turn, .inl rfl, (forward_of_value hbind).trans ?_⟩
        simp [Codec.after, Codec.presents, hbind, State.setCodec, Codec.leavesOut]
  | branchOk n =>
    cases hr : u.lastTaken with
    | none => exact .inl ⟨_, by simp only [Codec.faultOf, hr], branchOk_of_none hr⟩
    | some r =>
      simp only [Codec.faultOf, hr, ← ofCode_isSome_iff]
      cases hst : Status.ofCode r.status with
      | none => exact .inl ⟨_, rfl, branchOk_of_undefined hr hst⟩
      | some e =>
        refine .inr ⟨rfl, s.turn, .inl rfl, ?_⟩
        by_cases he : e = .ok
        · subst he
          simp [branchOk_of_ok hr hst, Codec.after, hself, Codec.leavesOut, hr, hst]
        · simp [branchOk_of_error hr hst he, Codec.after, hself, Codec.leavesOut, hr, hst, he]
  | _ => exact .inr ⟨rfl, s.turn, .inl rfl, by simp [Codec.after, State.setCodec, Codec.leavesOut]⟩

/-- What a move at which the machine goes on has done. -/
theorem act_next {k : Nat} {m : Move} {s t : State} (h : act k m s = .next t) :
    ∃ u, s.codecs[k]? = some u ∧ u.faultOf m = none ∧ t.codecs = s.codecs.set k (u.after m) ∧
      (t.turn = s.turn ∨ t.turn = k) ∧ t.schedule = skipMoves k (u.leavesOut m) s.schedule := by
  obtain ⟨u, hu, -⟩ := act_codecs h
  rcases act_of_faultOf m hu with ⟨f, -, hf⟩ | ⟨hn, turn, hturn, ht⟩
  · rw [hf] at h; cases h
  · rw [ht] at h; cases h
    exact ⟨u, hu, hn, rfl, hturn, rfl⟩

/-- Whether a move at a codec goes on, and what becomes of the codecs and the schedule, is up to that codec. -/
theorem act_of_no_fault {k : Nat} {m : Move} {s : State} {u : Codec} (hu : s.codecs[k]? = some u) (h : u.faultOf m = none) :
    ∃ t, act k m s = .next t ∧ t.codecs = s.codecs.set k (u.after m) ∧
      t.schedule = skipMoves k (u.leavesOut m) s.schedule := by
  rcases act_of_faultOf m hu with ⟨f, hf, -⟩ | ⟨-, turn, -, ht⟩
  · rw [h] at hf; cases hf
  · exact ⟨_, ht, rfl, rfl⟩

/-- With no move scheduled the machine goes on (log entry 2). -/
theorem step_of_schedule_nil {s : State} (h : s.schedule = []) : ∃ t, step s = .next t := by
  have hstep : step s = idle s := by rw [step, h]
  rw [hstep, idle]
  cases hk : s.firstReady with
  | none => exact ⟨s, rfl⟩
  | some k =>
    obtain ⟨hlt, -⟩ := List.findIdx?_eq_some_iff_getElem.1 hk
    obtain ⟨t, ht, -⟩ := act_of_no_fault (m := .answer) (List.getElem?_eq_getElem hlt) rfl
    exact ⟨t, ht⟩

end Sys2Proof.Machine
end

section
/-! SUPPORT. The invariant, move by move (10_state.md R25, R31, R32; 70_reset_and_hazards.md R145, R151). -/

namespace Sys2Proof.Machine

theorem atReset_wellFormed : Codec.atReset.WellFormed where
  withinCapacity := Nat.zero_le _
  emptyInReset := nofun
  queueFits := nofun
  responseFits := nofun
  takenFits := nofun
  unacceptedFits := nofun

/-- A command that a move presents fits the ports, if the move does. -/
theorem presents_wellFormed {u : Codec} {m : Move} {c : Command} (hm : m.WellFormed) (h : u.presents m = some c) :
    c.WellFormed := by
  rcases presents_eq_some_iff.1 h with rfl | ⟨cmd, v, rfl, -, rfl⟩
  · exact hm
  · exact Laws.EncodedFits.valueCommand_fits cmd v

theorem offer_wellFormed {u : Codec} (h : u.WellFormed) {c : Command} (hc : c.WellFormed) : (u.offer c).WellFormed where
  withinCapacity := by
    rw [offer_occupancy]
    split
    · exact ((cmdReady_iff u).1 ‹_›).2
    · exact h.withinCapacity
  emptyInReset hr := by
    rw [offer_inReset] at hr
    rw [offer_queue_inReset hr, offer_response]
    exact h.emptyInReset hr
  queueFits d hd := by
    rw [offer_queue] at hd
    split at hd
    · rcases List.mem_append.1 hd with hd | hd
      · exact h.queueFits d hd
      · rwa [List.mem_singleton.1 hd]
    · exact h.queueFits d hd
  responseFits r hr := h.responseFits r (offer_response u c ▸ hr)
  takenFits r hr := h.takenFits r (offer_taken u c ▸ hr)
  unacceptedFits d hd := by
    rcases mem_offer_unaccepted hd with rfl | hd
    · exact hc
    · exact h.unacceptedFits d hd

theorem afterAnswer_wellFormed {u : Codec} (h : u.WellFormed) : u.afterAnswer.WellFormed := by
  rcases afterAnswer_cases u with ha | ⟨c, q, hp, hq, ha⟩ <;> rw [ha]
  · exact h
  · refine ⟨?_, fun hr => ?_, fun d hd => h.queueFits d (hq ▸ List.mem_cons_of_mem c hd), fun r hr => ?_, h.takenFits,
      h.unacceptedFits⟩
    · have hcap := h.withinCapacity
      simpa [Codec.occupancy, hp, hq] using hcap
    · have hempty := (h.emptyInReset hr).1
      rw [hq] at hempty
      cases hempty
    · rw [← Option.some.inj hr]
      exact commandResponse_wellFormed c

theorem take_wellFormed {u : Codec} (h : u.WellFormed) : u.take.WellFormed := by
  rcases take_cases u with ⟨r, hr, hp, ht⟩ | ⟨-, ht⟩ <;> rw [ht]
  · refine ⟨?_, fun hreset => ?_, h.queueFits, nofun, fun x hx => ?_, h.unacceptedFits⟩
    · exact Nat.le_trans (Nat.le_add_right _ _) h.withinCapacity
    · rw [hr] at hreset; cases hreset
    · rcases List.mem_append.1 hx with hx | hx
      · exact h.takenFits x hx
      · exact h.responseFits x (hp.trans (congrArg some (List.mem_singleton.1 hx).symm))
  · exact h

theorem assertReset_wellFormed {u : Codec} (h : u.WellFormed) : u.assertReset.WellFormed where
  withinCapacity := Nat.zero_le _
  emptyInReset _ := ⟨rfl, rfl⟩
  queueFits := nofun
  responseFits := nofun
  takenFits := h.takenFits
  unacceptedFits := h.unacceptedFits

theorem releaseReset_wellFormed {u : Codec} (h : u.WellFormed) : u.releaseReset.WellFormed :=
  { h with emptyInReset := nofun }

/-- Every move leaves its codec in good order. -/
theorem after_wellFormed {u : Codec} (h : u.WellFormed) {m : Move} (hm : m.WellFormed) : (u.after m).WellFormed := by
  rcases after_cases u m with ⟨c, hc, ha⟩ | ⟨-, ha⟩ | ⟨-, ha⟩ | ⟨-, ha⟩ | ⟨-, ha⟩ | ⟨-, -, ha⟩ <;> rw [ha]
  · exact offer_wellFormed h (presents_wellFormed hm hc)
  · exact afterAnswer_wellFormed h
  · exact take_wellFormed h
  · exact assertReset_wellFormed h
  · exact releaseReset_wellFormed h
  · exact h

/-- A move keeps the invariant: one codec changes, and no move is added to the schedule. -/
theorem act_keeps_inv {k : Nat} {m : Move} {s t : State} (hs : s.Inv) (hm : m.WellFormed) (h : act k m s = .next t) :
    t.Inv := by
  obtain ⟨u, hu, -, hcodecs, hturn, hschedule⟩ := act_next h
  obtain ⟨hk, -⟩ := List.getElem?_eq_some_iff.1 hu
  refine ⟨by rw [hcodecs, List.length_set, hs.instances], ?_, fun w hw => ?_, fun x hx => ?_⟩
  · rcases hturn with hturn | hturn <;> rw [hturn]
    · exact hs.turnExists
    · rwa [← hs.instances]
  · rw [hcodecs] at hw
    rcases List.mem_or_eq_of_mem_set hw with hw | rfl
    · exact hs.codecsFit w hw
    · exact after_wellFormed (hs.codecsFit u (List.mem_of_getElem? hu)) hm
  · rw [hschedule] at hx
    exact hs.movesFit x ((skipMoves_sublist _ _ _).subset hx)

end Sys2Proof.Machine
end

section
/-! The obligations on the invariant of the machine. -/

namespace Sys2Proof.Machine

/-- Settles O35: a step is a scheduled move, the answer of a codec, or nothing, and a move keeps the invariant. -/
theorem stepKeepsTheInvariant : Obligations.StepKeepsTheInvariant := by
  intro s t hs h
  rcases step_cases h with ⟨k, m, rest, hsched, ha⟩ | ⟨-, -, rfl⟩ | ⟨k, -, -, ha⟩
  · have hmoves := hs.movesFit
    rw [hsched, List.forall_mem_cons] at hmoves
    obtain ⟨hm, hrest⟩ := hmoves
    exact act_keeps_inv (s := { s with schedule := rest }) { hs with movesFit := hrest } hm ha
  · exact hs
  · exact act_keeps_inv (m := .answer) hs trivial ha

/-- Settles O34: N_INSTANCES codecs, each as it is right after reset. -/
theorem resetMeetsTheInvariant : Obligations.ResetMeetsTheInvariant where
  instances := List.length_replicate
  turnExists := Config.one_le_nInstances
  codecsFit _ hu := List.eq_of_mem_replicate hu ▸ atReset_wellFormed
  movesFit := nofun

end Sys2Proof.Machine
end

section
/-! SUPPORT. The step by the kind of its move: an answer, a presented command, none (10_state.md R34, 70_reset_and_hazards.md
R145 to R151). -/

namespace Sys2Proof.Machine

/-- A codec that can answer runs the operation its oldest command decodes to (60_exceptions.md R126). -/
theorem answer_of_decode {k : Nat} {u : Codec} {s : State} {c : Command} {q : List Command} {i : Instr}
    (hr : u.inReset = false) (hp : u.response = none) (hq : u.queue = c :: q) (hi : decode c = .ok i) :
    answer k u s = exec i (s.fetch k u q) := by
  rw [answer_ready hr hp hq, exec_eq, fetch_respond, commandResponse_of_decode hi]

/-- The codec that answers when no move is scheduled (log entry 2). -/
theorem firstReady_eq_some {s : State} {k : Nat} {u : Codec} (hu : s.codecs[k]? = some u) (h : u.canAnswer = true)
    (hlow : ∀ j < k, ∀ w, s.codecs[j]? = some w → w.canAnswer = false) : s.firstReady = some k := by
  obtain ⟨hk, rfl⟩ := List.getElem?_eq_some_iff.1 hu
  refine List.findIdx?_eq_some_iff_getElem.2 ⟨hk, h, fun j hj => ?_⟩
  rw [hlow j hj _ (List.getElem?_eq_getElem (hj.trans hk))]
  nofun

theorem step_of_firstReady {s : State} {k : Nat} {u : Codec} (hs : s.schedule = []) (hk : s.firstReady = some k)
    (hu : s.codecs[k]? = some u) : step s = answer k u s := by
  have hstep : step s = idle s := by rw [step, hs]
  rw [hstep, idle, hk]
  exact act_of_some .answer hu

theorem step_of_firstReady_none {s : State} (hs : s.schedule = []) (h : s.firstReady = none) : step s = .next s := by
  have hstep : step s = idle s := by rw [step, hs]
  rw [hstep, idle, h]

/-- The waiting response counts as one of the commands held (log entry 15). -/
theorem occupancy_eq (u : Codec) : u.occupancy = u.queue.length + if u.response.isSome then 1 else 0 := by
  rw [Codec.occupancy]
  cases u.response <;> rfl

/-- A move that presents a command offers it, whether it is an offer or a forward. -/
theorem after_of_presents {u : Codec} {m : Move} {c : Command} (h : u.presents m = some c) : u.after m = u.offer c := by
  rcases presents_eq_some_iff.1 h with rfl | ⟨cmd, v, rfl, -, -⟩
  · rfl
  · rw [Codec.after, h]; rfl

/-- A step that presents a command offers it (70_reset_and_hazards.md R149). -/
theorem step_presents {s : State} {k : Nat} {m : Move} {c : Command} {rest : List (Nat × Move)} {u : Codec}
    (hs : s.schedule = (k, m) :: rest) (hu : s.codecs[k]? = some u) (hc : u.presents m = some c) :
    step s = .next { s with codecs := s.codecs.set k (u.offer c), schedule := rest } := by
  rw [step_at hs hu]
  rcases presents_eq_some_iff.1 hc with rfl | ⟨cmd, v, rfl, hv, rfl⟩
  · rfl
  · exact forward_of_value hv

/-- A ready codec accepts the command, with every field as it stands (70_reset_and_hazards.md R149). -/
theorem offer_ready {u : Codec} (h : u.cmdReady = true) (c : Command) :
    u.offer c = { u with queue := u.queue ++ [c], unaccepted := u.unaccepted.erase c } := if_pos h

end Sys2Proof.Machine
end

section
/-! The obligations on single steps. -/

namespace Sys2Proof.Machine

/-- Settles O29: every operation is `respond` at the codec whose turn it is. -/
theorem operationsWriteOnlyTheResponse : Obligations.OperationsWriteOnlyTheResponse := by
  intro i s t h
  rw [exec_eq] at h
  cases h
  refine ⟨rfl, rfl, List.length_modify _ _ _, fun k u hu => ?_⟩
  rw [respond_codecs, List.getElem?_modify, hu]
  by_cases hk : s.turn = k
  · exact ⟨{ u with response := some (responseOf i) }, by simp [hk], rfl, rfl, rfl, rfl, rfl,
      fun hne => absurd hk.symm hne, fun _ => rfl⟩
  · exact ⟨u, by simp [hk], rfl, rfl, rfl, rfl, rfl, fun _ => rfl, fun heq => absurd heq.symm hk⟩

/-- Settles O36: either way the step is the codec's answer, which runs the operation in the fetched state. -/
theorem stepRunsTheDecodedOperation : Obligations.StepRunsTheDecodedOperation := by
  intro s k rest u c q i hsched hu hr hp hq hi
  rcases hsched with hs | ⟨hs, rfl, hlow⟩
  · rw [step_at hs hu]
    exact answer_of_decode hr hp hq hi
  · have hcan : u.canAnswer = true := (canAnswer_iff u).2 ⟨hr, hp, by simp [hq]⟩
    rw [step_of_firstReady hs (firstReady_eq_some hu hcan hlow) hu, answer_of_decode hr hp hq hi, State.fetch, State.setCodec,
      hs]

/-- Settles O39: asserting reset is `Codec.assertReset`, which counts what the codec held. -/
theorem resetDropsCommandsAndResponses : Obligations.ResetDropsCommandsAndResponses := by
  refine ⟨fun u hu => ?_, fun s k rest u hs hu => ?_⟩
  · rw [List.eq_of_mem_replicate hu]
    exact ⟨rfl, rfl⟩
  · rw [step_at hs hu, Nat.add_assoc, ← occupancy_eq]
    rfl

/-- Settles O41: an offer and a forward both present the command, and `Codec.offer` decides on it by `cmd_ready`. -/
theorem commandsAreAcceptedExactlyWhenReady : Obligations.CommandsAreAcceptedExactlyWhenReady := by
  intro s k m c rest u hs hu hm
  have hpresents : u.presents m = some c := by
    refine presents_eq_some_iff.2 (hm.imp_right ?_)
    rintro ⟨cmd, r, v, rfl, hr, hv, rfl⟩
    exact ⟨cmd, v, rfl, by rw [Codec.lastTaken, hr]; exact hv, rfl⟩
  exact ⟨by rw [cmdReady_iff, occupancy_eq], step_presents hs hu hpresents⟩

/-- Settles O49: no codec holds a command to answer. -/
theorem finishedRunsStayFinished : Obligations.FinishedRunsStayFinished := by
  rintro s ⟨hs, hdone⟩
  refine step_of_firstReady_none hs (List.findIdx?_eq_none_iff.2 fun u hu => ?_)
  obtain ⟨-, hq, -, -⟩ := hdone u hu
  simp [Codec.canAnswer, hq]

/-- Settles O51: a released codec that holds nothing is idle, and so ready. -/
theorem releaseTakesTheInstanceOutOfReset : Obligations.ReleaseTakesTheInstanceOutOfReset := by
  refine ⟨fun s k rest u hs hu => step_at hs hu, fun s k c rest u hs hu hq hp => ?_⟩
  have hready : u.releaseReset.cmdReady = true := cmdReady_of_idle rfl hq hp
  have hoffer := step_presents
    (s := { s with codecs := s.codecs.set k u.releaseReset, schedule := (k, .offer c) :: rest })
    rfl ((getElem?_set_codec hu).trans (if_pos rfl)) (show u.releaseReset.presents (.offer c) = some c from rfl)
  rw [offer_ready hready, List.set_set, releaseReset_queue, hq] at hoffer
  exact reaches_succ (step_at hs hu) (reaches_succ hoffer (reaches_zero _))

end Sys2Proof.Machine
end

section
/-! The obligations on what moves of different codecs share, and on what stops the machine (60_exceptions.md R134, R138). -/

namespace Sys2Proof.Machine

/-- The next move of another codec is not left out. -/
theorem skipMoves_cons_of_ne {j k : Nat} (h : k ≠ j) (n : Nat) (m : Move) (ms : List (Nat × Move)) :
    skipMoves j n ((k, m) :: ms) = (k, m) :: skipMoves j n ms := by
  cases n with
  | zero => rw [skipMoves_zero, skipMoves_zero]
  | succ n => rw [skipMoves, if_neg h]

theorem act_getElem?_ne {k : Nat} {m : Move} {s t : State} (h : act k m s = .next t) {j : Nat} (hj : j ≠ k) :
    t.codecs[j]? = s.codecs[j]? := by
  obtain ⟨u, -, ht⟩ := act_codecs h
  rw [ht, List.getElem?_set_ne hj.symm]

/-- Settles O44: a step is at most one move. -/
theorem instancesShareNothing : Obligations.InstancesShareNothing := by
  intro s t h
  rcases step_cases h with ⟨k, m, rest, hs, ha⟩ | ⟨hs, -, rfl⟩ | ⟨k, hs, -, ha⟩
  · refine ⟨fun k' m' rest' hs' j hj => ?_, fun hnil => ?_⟩
    · cases hs.symm.trans hs'
      exact act_getElem?_ne ha hj
    · cases hs.symm.trans hnil
  · exact ⟨fun _ _ _ _ _ _ => rfl, fun _ => ⟨0, fun _ _ => rfl⟩⟩
  · refine ⟨fun k' m' rest' hs' => ?_, fun _ => ⟨k, fun j hj => act_getElem?_ne ha hj⟩⟩
    cases hs.symm.trans hs'

/-- Two scheduled moves at two codecs, neither of which faults, go on. -/
theorem reaches_two_moves {s : State} {j k : Nat} {m n : Move} {rest : List (Nat × Move)} {u w : Codec} (hjk : j ≠ k)
    (hs : s.schedule = (j, m) :: (k, n) :: rest) (hu : s.codecs[j]? = some u) (hw : s.codecs[k]? = some w)
    (hm : u.faultOf m = none) (hn : w.faultOf n = none) :
    ∃ t, s.Reaches 2 t ∧ t.codecs = (s.codecs.set j (u.after m)).set k (w.after n) ∧
      t.schedule = skipMoves k (w.leavesOut n) (skipMoves j (u.leavesOut m) rest) := by
  obtain ⟨a, ha, hac, has⟩ := act_of_no_fault (s := { s with schedule := (k, n) :: rest }) hu hm
  rw [skipMoves_cons_of_ne hjk.symm] at has
  have hwa : a.codecs[k]? = some w := (act_getElem?_ne ha hjk.symm).trans hw
  obtain ⟨t, ht, htc, hts⟩ := act_of_no_fault (s := { a with schedule := skipMoves j (u.leavesOut m) rest }) hwa hn
  rw [← step_scheduled hs] at ha
  rw [← step_scheduled has] at ht
  exact ⟨t, reaches_succ ha (reaches_succ ht (reaches_zero t)), htc.trans (congrArg (List.set · k _) hac), hts⟩

/-- Two moves at two codecs that go on have no fault, and are these. -/
theorem reaches_two_moves_inv {s t : State} {j k : Nat} {m n : Move} {rest : List (Nat × Move)} (hjk : j ≠ k)
    (hs : s.schedule = (j, m) :: (k, n) :: rest) (h : s.Reaches 2 t) :
    ∃ u w, s.codecs[j]? = some u ∧ s.codecs[k]? = some w ∧ u.faultOf m = none ∧ w.faultOf n = none ∧
      t.codecs = (s.codecs.set j (u.after m)).set k (w.after n) ∧
      t.schedule = skipMoves k (w.leavesOut n) (skipMoves j (u.leavesOut m) rest) := by
  obtain ⟨a, ha, b, hb, rfl⟩ := h
  rw [step_scheduled hs] at ha
  obtain ⟨u, hu, hm, hac, -, has⟩ := act_next ha
  rw [skipMoves_cons_of_ne hjk.symm] at has
  rw [step_scheduled has] at hb
  obtain ⟨w, hw, hn, hbc, -, hbs⟩ := act_next hb
  exact ⟨u, w, hu, (act_getElem?_ne ha hjk.symm).symm.trans hw, hm, hn, hbc.trans (congrArg (List.set · k _) hac), hbs⟩

/-- Settles O45: whether a move faults, and what it makes of its codec and leaves out, is up to that codec, which the other
move does not touch. -/
theorem movesAtDifferentInstancesCommute : Obligations.MovesAtDifferentInstancesCommute := by
  intro cs turn j k m n rest a hjk h
  obtain ⟨u, w, hu, hw, hm, hn, hac, has⟩ := reaches_two_moves_inv hjk rfl h
  obtain ⟨b, hb, hbc, hbs⟩ := reaches_two_moves
    (s := { codecs := cs, turn := turn, schedule := (k, n) :: (j, m) :: rest }) hjk.symm rfl hw hu hn hm
  exact ⟨b, hb, by rw [hbc, hac, List.set_comm _ _ hjk.symm], by rw [hbs, has, skipMoves_comm hjk]⟩

/-- The causes of a fault: the host's reading of what the last response taken does not define (10_state.md R33, R39;
93_implementation_defined.md). -/
theorem faultOf_cases {u : Codec} {m : Move} {f : Fault} (h : u.faultOf m = some f) :
    (f = .undefinedField ∧
      ((∃ g, m = .read g ∧ (u.taken = [] ∨ ∃ r, u.taken.getLast? = some r ∧ r.defines g = false)) ∨
        (∃ cmd, m = .forward cmd ∧ (u.taken = [] ∨ ∃ r, u.taken.getLast? = some r ∧ r.outVal = none)) ∨
        (∃ n, m = .branchOk n ∧ u.taken = []))) ∨
    (f = .undefinedStatus ∧ (∃ n, m = .branchOk n) ∧ ∃ r, u.taken.getLast? = some r ∧ 4 ≤ r.status.toNat) := by
  rw [Codec.faultOf.eq_def] at h
  cases hr : u.lastTaken with
  | none =>
    have htaken : u.taken = [] := List.getLast?_eq_none_iff.1 hr
    rw [hr] at h
    cases m with
    | read g => exact .inl ⟨(Option.some.inj h).symm, .inl ⟨g, rfl, .inl htaken⟩⟩
    | forward cmd => exact .inl ⟨(Option.some.inj h).symm, .inr (.inl ⟨cmd, rfl, .inl htaken⟩)⟩
    | branchOk n => exact .inl ⟨(Option.some.inj h).symm, .inr (.inr ⟨n, rfl, htaken⟩)⟩
    | _ => cases h
  | some r =>
    rw [hr] at h
    cases m with
    | read g =>
      obtain ⟨hd, hf⟩ := Option.ite_none_left_eq_some.1 h
      exact .inl ⟨(Option.some.inj hf).symm, .inl ⟨g, rfl, .inr ⟨r, hr, Bool.not_eq_true _ ▸ hd⟩⟩⟩
    | forward cmd =>
      obtain ⟨hv, hf⟩ := Option.ite_none_left_eq_some.1 h
      exact .inl ⟨(Option.some.inj hf).symm, .inr (.inl ⟨cmd, rfl, .inr ⟨r, hr, Option.not_isSome_iff_eq_none.1 hv⟩⟩)⟩
    | branchOk n =>
      obtain ⟨hst, hf⟩ := Option.ite_none_left_eq_some.1 h
      exact .inr ⟨(Option.some.inj hf).symm, ⟨n, rfl⟩, r, hr, Nat.not_lt.1 hst⟩
    | _ => cases h

/-- A host that reads only defined fields makes no move with a fault (70_reset_and_hazards.md R153 (d)). -/
theorem faultOf_eq_none_of_readsDefined {u : Codec} {m : Move} (h : u.ReadsDefined m) : u.faultOf m = none := by
  rw [Codec.faultOf.eq_def]
  cases m with
  | read f =>
    obtain ⟨r, hr, -, hd⟩ := h
    simp only [Codec.lastTaken, hr, hd, if_true]
  | forward cmd =>
    obtain ⟨r, hr, -, hv⟩ := h
    simp only [Codec.lastTaken, hr, hv, if_true]
  | branchOk n =>
    obtain ⟨r, hr, hst⟩ := h
    simp only [Codec.lastTaken, hr, hst, if_true]
  | _ => rfl

/-- Settles O46: with no move scheduled the machine goes on; a scheduled move at an existing codec goes on or has the fault of
`Codec.faultOf`. -/
theorem onlyHostReadsStopTheMachine : Obligations.OnlyHostReadsStopTheMachine := by
  intro s
  cases hs : s.schedule with
  | nil =>
    obtain ⟨t, ht⟩ := step_of_schedule_nil hs
    rw [ht]
    exact ⟨nofun, nofun⟩
  | cons move rest =>
    obtain ⟨k, m⟩ := move
    rw [step_scheduled hs]
    cases hu : s.codecs[k]? with
    | none =>
      have hact : act k m { s with schedule := rest } = .fault .noSuchInstance := by simp only [act, hu]
      rw [hact]
      exact ⟨nofun, fun f hf => ⟨k, m, rest, rfl, .inl ⟨hu, (Host.Outcome.fault.inj hf).symm⟩⟩⟩
    | some u =>
      rcases act_of_faultOf (s := { s with schedule := rest }) m hu with ⟨f, hf, hact⟩ | ⟨-, turn, -, hact⟩ <;> rw [hact]
      · refine ⟨nofun, fun g hg => ⟨k, m, rest, rfl, .inr ⟨u, hu, ?_⟩⟩⟩
        cases hg
        exact faultOf_cases hf
      · exact ⟨nofun, nofun⟩

/-- Settles O50: no scheduled move has a fault, and a command with an assigned byte is illegal only for its length. -/
theorem obedientHostsNeverStopTheMachine : Obligations.ObedientHostsNeverStopTheMachine := by
  refine fun s hobeys hexists => ⟨?_, fun k c hc hlow hhigh hstatus => ?_⟩
  · cases hs : s.schedule with
    | nil => exact step_of_schedule_nil hs
    | cons move rest =>
      obtain ⟨k, m⟩ := move
      have hu := List.getElem?_eq_getElem (hexists (k, m) (by simp [hs]))
      have hm := faultOf_eq_none_of_readsDefined (hobeys.readsDefined k m rest _ hs hu)
      obtain ⟨t, ht, -⟩ := act_of_no_fault (s := { s with schedule := rest }) hu hm
      exact ⟨t, (step_scheduled hs).trans ht⟩
  · have hl : c.inLen ≤ Config.maxInLen := hobeys.lengthsFit _ hc c rfl
    have hill := (commandResponse_status_eq_three_iff c).1 hstatus
    omega

end Sys2Proof.Machine
end

section
/-! SUPPORT. What a move makes of the host's records and of the commands accepted (70_reset_and_hazards.md R146, R151, R153,
R155; log entry 18). -/

namespace Sys2Proof.Machine

@[simp] theorem afterAnswer_unaccepted (u : Codec) : u.afterAnswer.unaccepted = u.unaccepted := by
  rcases afterAnswer_cases u with h | ⟨c, q, -, -, h⟩ <;> rw [h]

@[simp] theorem afterAnswer_dropped (u : Codec) : u.afterAnswer.dropped = u.dropped := by
  rcases afterAnswer_cases u with h | ⟨c, q, -, -, h⟩ <;> rw [h]

/-- An answered command is still held, as the response that waits (log entry 15). -/
@[simp] theorem afterAnswer_occupancy (u : Codec) : u.afterAnswer.occupancy = u.occupancy := by
  rcases afterAnswer_cases u with h | ⟨c, q, hp, hq, h⟩ <;> rw [h]
  simp [Codec.occupancy, hp, hq]

/-- The number of commands accepted so far: the responses taken, the commands still owed one, the commands dropped. -/
def Codec.acceptedCount (u : Codec) : Nat := u.taken.length + u.occupancy + u.dropped

theorem afterAnswer_acceptedCount (u : Codec) : u.afterAnswer.acceptedCount = u.acceptedCount := by
  simp [Codec.acceptedCount]

theorem offer_acceptedCount (u : Codec) (c : Command) :
    (u.offer c).acceptedCount = if u.cmdReady then u.acceptedCount + 1 else u.acceptedCount := by
  rw [Codec.acceptedCount, offer_taken, offer_occupancy, offer_dropped]
  split
  · rw [Codec.acceptedCount]; omega
  · rfl

/-- A take moves one command from those owed a response to those whose response is taken. -/
theorem take_acceptedCount (u : Codec) : u.take.acceptedCount = u.acceptedCount := by
  rcases take_cases u with ⟨r, -, hp, h⟩ | ⟨-, h⟩ <;> rw [h]
  simp [Codec.acceptedCount, Codec.occupancy, hp]
  omega

/-- A reset moves every command owed a response to those dropped. -/
theorem assertReset_acceptedCount (u : Codec) : u.assertReset.acceptedCount = u.acceptedCount := by
  simp only [Codec.acceptedCount, assertReset_taken, assertReset_occupancy, assertReset_dropped]
  omega

/-! ## A move that presents no command -/

section
variable {u : Codec} {m : Move} (h : u.presents m = none)
include h

/-- What a move that presents no command makes of the codec. -/
theorem after_cases_of_presents_none :
    u.after m = u.afterAnswer ∨ u.after m = u.take ∨ (m = .assertReset ∧ u.after m = u.assertReset) ∨
      u.after m = u.releaseReset ∨ u.after m = u := by
  rcases after_cases u m with ⟨c, hc, -⟩ | ⟨-, ha⟩ | ⟨-, ha⟩ | ha | ⟨-, ha⟩ | ⟨-, -, ha⟩
  · cases h.symm.trans hc
  · exact .inl ha
  · exact .inr (.inl ha)
  · exact .inr (.inr (.inl ha))
  · exact .inr (.inr (.inr (.inl ha)))
  · exact .inr (.inr (.inr (.inr ha)))

theorem after_unaccepted_of_presents_none : (u.after m).unaccepted = u.unaccepted := by
  rcases after_cases_of_presents_none h with ha | ha | ⟨-, ha⟩ | ha | ha <;> rw [ha]
  · exact afterAnswer_unaccepted u
  · exact take_unaccepted u
  · exact assertReset_unaccepted u
  · exact releaseReset_unaccepted u

theorem after_acceptedCount_of_presents_none : (u.after m).acceptedCount = u.acceptedCount := by
  rcases after_cases_of_presents_none h with ha | ha | ⟨-, ha⟩ | ha | ha <;> rw [ha]
  · exact afterAnswer_acceptedCount u
  · exact take_acceptedCount u
  · exact assertReset_acceptedCount u
  · rfl

end

/-! ## Any move -/

/-- Only a reset drops commands. -/
theorem after_dropped (u : Codec) {m : Move} (hm : m ≠ .assertReset) : (u.after m).dropped = u.dropped := by
  rcases after_cases u m with ⟨c, -, h⟩ | ⟨-, h⟩ | ⟨-, h⟩ | ⟨ha, -⟩ | ⟨-, h⟩ | ⟨-, -, h⟩
  · rw [h, offer_dropped]
  · rw [h, afterAnswer_dropped]
  · rw [h, take_dropped]
  · exact absurd ha hm
  · rw [h, releaseReset_dropped]
  · rw [h]

theorem dropped_le_after (u : Codec) (m : Move) : u.dropped ≤ (u.after m).dropped := by
  by_cases hm : m = .assertReset
  · subst hm; exact Nat.le_add_right _ _
  · exact (after_dropped u hm).ge

/-- What the host has taken stays with it. -/
theorem taken_isPrefix_after (u : Codec) (m : Move) : u.taken <+: (u.after m).taken := by
  rcases after_cases u m with ⟨c, -, h⟩ | ⟨-, h⟩ | ⟨-, h⟩ | ⟨-, h⟩ | ⟨-, h⟩ | ⟨-, -, h⟩ <;> rw [h]
  · rw [offer_taken]
  · rw [afterAnswer_taken]
  · rcases take_cases u with ⟨r, -, -, ht⟩ | ⟨-, ht⟩ <;> rw [ht]
    exact ⟨[r], rfl⟩
  · rw [assertReset_taken]
  · rw [releaseReset_taken]

/-- While at most the command presented stands in the record, no second one joins it (70_reset_and_hazards.md R153 (a)). -/
theorem length_offer_unaccepted_le_one {u : Codec} {c : Command} (hsame : ∀ d ∈ u.unaccepted, d = c)
    (h : u.unaccepted.length ≤ 1) : (u.offer c).unaccepted.length ≤ 1 := by
  rw [offer_unaccepted]
  split
  · exact (List.length_erase_le).trans h
  · cases hl : u.unaccepted with
    | nil => simp
    | cons d ds =>
      have hd : c ∈ d :: ds := by rw [hsame d (by simp [hl])]; exact List.mem_cons_self
      rwa [List.insert_of_mem hd, ← hl]

end Sys2Proof.Machine
end

section
/-! The obligations on the host's records. -/

namespace Sys2Proof.Machine

/-- Settles O52: a presented command is offered, which writes the record, and no other move does. -/
theorem hostRecordHoldsWhatIsNotAccepted : Obligations.HostRecordHoldsWhatIsNotAccepted := by
  intro s t k u hu h
  rcases step_getElem? h hu with ⟨m, hs, ht⟩ | ⟨hs, ht⟩
  · refine ⟨_, ht, ?_⟩
    cases hc : u.presents m with
    | none =>
      have hrecord := after_unaccepted_of_presents_none hc
      exact ⟨.inr ⟨by simp [hs, hc], hrecord⟩, fun _ hone => hrecord ▸ hone⟩
    | some c =>
      rw [after_of_presents hc]
      refine ⟨.inl ⟨m, c, hs, hc, ?_⟩, fun hobeys hone => ?_⟩
      · rw [offer_queue, offer_unaccepted]
        cases u.cmdReady
        · exact .inr ⟨rfl, rfl, rfl⟩
        · exact .inl ⟨rfl, rfl, rfl⟩
      · obtain ⟨rest, hrest⟩ := List.head?_eq_some_iff.1 hs
        exact length_offer_unaccepted_le_one (hobeys.holdsFields k m rest u c hrest hu hc) hone
  · have hnone : ∀ m, s.schedule.head? = some (k, m) → u.presents m = none := fun m hm => absurd hm (hs m)
    rcases ht with ht | ht
    · exact ⟨u, ht, .inr ⟨hnone, rfl⟩, fun _ => id⟩
    · have hrecord := afterAnswer_unaccepted u
      exact ⟨_, ht, .inr ⟨hnone, hrecord⟩, fun _ hone => hrecord ▸ hone⟩

/-- A codec that has had a command dropped has had one dropped ever after. -/
theorem dropped_pos_of_reaches {n : Nat} {s t : State} {k : Nat} {u : Codec} (hu : s.codecs[k]? = some u) (hd : 0 < u.dropped)
    (h : s.Reaches n t) : ∃ w, t.codecs[k]? = some w ∧ 0 < w.dropped := by
  induction n generalizing s u with
  | zero =>
    cases h
    exact ⟨u, hu, hd⟩
  | succ n ih =>
    obtain ⟨a, ha, hrest⟩ := h
    rcases step_getElem? ha hu with ⟨m, -, hw⟩ | ⟨-, hw | hw⟩
    · exact ih hw (hd.trans_le (dropped_le_after u m)) hrest
    · exact ih hw hd hrest
    · exact ih hw (by rwa [afterAnswer_dropped]) hrest

/-- Settles O53: an accepted command adds one to `Codec.acceptedCount` and every other move keeps it; a finished state has
dropped nothing. -/
theorem acceptedCommandsAreTakenOwedOrDropped : Obligations.AcceptedCommandsAreTakenOwedOrDropped := by
  refine ⟨fun s t k u hu h => ?_, fun s t k n u hu hd h hfinished => ?_⟩
  · rcases step_getElem? h hu with ⟨m, hs, ht⟩ | ⟨hs, ht⟩
    · refine ⟨_, ht, ?_, taken_isPrefix_after u m, dropped_le_after u m, fun hne => ?_⟩
      · cases hc : u.presents m with
        | none =>
          refine .inr ⟨fun m' c hm' hc' => ?_, after_acceptedCount_of_presents_none hc⟩
          cases hs.symm.trans hm'
          cases hc.symm.trans hc'
        | some c =>
          have hcount := offer_acceptedCount u c
          rw [after_of_presents hc]
          cases hready : u.cmdReady with
          | false => exact .inr ⟨by simp, by rwa [hready] at hcount⟩
          | true => exact .inl ⟨m, c, hs, hc, rfl, by rwa [hready] at hcount⟩
      · by_cases hm : m = .assertReset
        · rw [hs, hm]
        · exact absurd (after_dropped u hm) hne
    · have hnone : ∀ m c, s.schedule.head? = some (k, m) → u.presents m = some c → u.cmdReady = false :=
        fun m c hm => absurd hm (hs m)
      rcases ht with ht | ht
      · exact ⟨u, ht, .inr ⟨hnone, rfl⟩, by rfl, Nat.le_refl _, fun hne => absurd rfl hne⟩
      · exact ⟨_, ht, .inr ⟨hnone, afterAnswer_acceptedCount u⟩, by rw [afterAnswer_taken], by rw [afterAnswer_dropped],
          fun hne => absurd (afterAnswer_dropped u) hne⟩
  · obtain ⟨w, hw, hpos⟩ := dropped_pos_of_reaches hu hd h
    obtain ⟨-, hcodecs⟩ := hfinished
    obtain ⟨-, -, -, hzero⟩ := hcodecs w (List.mem_of_getElem? hw)
    omega

end Sys2Proof.Machine
end

section
/-! SUPPORT. Runs of one codec's moves: answers and takes until nothing is owed, and calls of a command (30_encoding.md R64,
70_reset_and_hazards.md R150, R151). -/

namespace Sys2Proof.Machine

/-! ## Until nothing is owed -/

/-- The first move of an answer and a take does nothing while a response waits, which the second one takes. -/
theorem reaches_blocked_answer_take {s : State} {k : Nat} {rest : List (Nat × Move)} {u : Codec} {r : Response}
    (hs : s.schedule = (k, .answer) :: (k, .take) :: rest) (hu : s.codecs[k]? = some u)
    (hr : u.inReset = false) (hp : u.response = some r) :
    s.Reaches 2 { s with codecs := s.codecs.set k { u with response := none, taken := u.taken ++ [r] }, schedule := rest } := by
  have hanswer : step s = .next { s with schedule := (k, .take) :: rest } := by
    rw [step_at hs hu]
    exact answer_blocked (by simp [Codec.canAnswer, hp])
  exact reaches_succ hanswer (reaches_succ
    (step_take (s := { s with schedule := (k, .take) :: rest }) rfl hu hr hp) (reaches_zero _))

/-- With the channel free, an answer and a take for each command in the queue hand its responses to the host, in order. -/
theorem reaches_empty_queue {q : List Command} {s : State} {k : Nat} {rest : List (Nat × Move)} {u : Codec}
    (hu : s.codecs[k]? = some u) (hr : u.inReset = false) (hp : u.response = none) (hq : u.queue = q)
    (hs : s.schedule = (List.replicate q.length [(k, Move.answer), (k, Move.take)]).flatten ++ rest) :
    ∃ t, s.Reaches (2 * q.length) t ∧ t.schedule = rest ∧
      t.codecs = s.codecs.set k { u with queue := [], taken := u.taken ++ q.map commandResponse } := by
  induction q generalizing s u with
  | nil =>
    refine ⟨s, rfl, hs, ?_⟩
    rw [List.map_nil, List.append_nil, ← hq, set_codec_self hu]
  | cons c q ih =>
    have hfirst := reaches_answer_take hs hu hr hp hq
    obtain ⟨t, ht, hsched, hcodecs⟩ := ih
      (s := { codecs := s.codecs.set k { u with queue := q, taken := u.taken ++ [commandResponse c] }, turn := k,
              schedule := (List.replicate q.length [(k, Move.answer), (k, Move.take)]).flatten ++ rest })
      ((getElem?_set_codec hu).trans (if_pos rfl)) hr hp rfl rfl
    refine ⟨t, ?_, hsched, ?_⟩
    · rw [List.length_cons, Nat.mul_succ, Nat.add_comm]
      exact reaches_add hfirst ht
    · rw [hcodecs, List.set_set, List.append_assoc]; rfl

/-! ## Calls -/

/-- The codec once the command `c`, presented while it was idle, is answered and the host has taken the response. -/
def Codec.afterCall (u : Codec) (c : Command) : Codec :=
  { u with taken := u.taken ++ [commandResponse c], unaccepted := u.unaccepted.erase c }

theorem afterCall_lastTaken (u : Codec) (c : Command) : (u.afterCall c).lastTaken = some (commandResponse c) :=
  List.getLast?_concat

/-- The moves scheduled all go on, and what they change of codec `k`, which is `u`, is that its host has taken the responses
`rs`, of which all but the last are OK, and that commands may have left the host's record. -/
def State.EndsTaking (s : State) (k : Nat) (u : Codec) (rs : List Response) : Prop :=
  ∃ n t l, s.Reaches n t ∧ t.schedule = [] ∧
    t.codecs = s.codecs.set k { u with taken := u.taken ++ rs, unaccepted := l } ∧ l.Sublist u.unaccepted ∧
    ∀ i r, i + 1 < rs.length → rs[i]? = some r → r.status = 0#3

/-- After an error the host leaves out the second command (30_encoding.md R61, R64). -/
theorem reaches_thenMoves_of_error {s : State} {k : Nat} {u : Codec} {cmd : Byte} {e : Status}
    (hu : s.codecs[k]? = some u) (he : e ≠ .ok) (hlast : u.lastTaken = some (raise e))
    (hs : s.schedule = movesAt k (thenMoves cmd)) : s.Reaches 1 { s with schedule := [] } := by
  have hcode : Status.ofCode (raise e).status = some e := by cases e <;> rfl
  have hbranch : step s = .next { s with schedule := skipMoves k 3 [(k, .forward cmd), (k, .answer), (k, .take)] } :=
    (step_at hs hu).trans (branchOk_of_error hlast hcode he)
  have hskip : skipMoves k 3 [(k, .forward cmd), (k, .answer), (k, .take)] = [] := by simp [skipMoves]
  rw [hskip] at hbranch
  exact reaches_succ hbranch (reaches_zero _)

section
variable {s : State} {k : Nat} {u : Codec} (hu : s.codecs[k]? = some u)
  (hr : u.inReset = false) (hq : u.queue = []) (hp : u.response = none)
include hu hr hq hp

/-- A command presented at an idle codec, its answer and its take. -/
theorem reaches_call {m : Move} {c : Command} {rest : List (Nat × Move)}
    (hs : s.schedule = (k, m) :: (k, .answer) :: (k, .take) :: rest) (hc : u.presents m = some c) :
    s.Reaches 3 { codecs := s.codecs.set k (u.afterCall c), turn := k, schedule := rest } := by
  have hoffer := step_presents hs hu hc
  rw [offer_ready (cmdReady_of_idle hr hq hp)] at hoffer
  have hqueue : u.queue ++ [c] = c :: u.queue := by rw [hq]; rfl
  have hanswer := reaches_answer_take
    (s := { s with codecs := s.codecs.set k { u with queue := u.queue ++ [c], unaccepted := u.unaccepted.erase c },
                   schedule := (k, .answer) :: (k, .take) :: rest })
    rfl ((getElem?_set_codec hu).trans (if_pos rfl)) hr hp hqueue
  rw [List.set_set] at hanswer
  exact reaches_succ hoffer hanswer

/-- After a value the host calls the second command with it (30_encoding.md R64). -/
theorem reaches_thenMoves_of_value {cmd : Byte} {v : Value} (hlast : u.lastTaken = some (okValue v))
    (hs : s.schedule = movesAt k (thenMoves cmd)) :
    s.Reaches 4 { codecs := s.codecs.set k (u.afterCall (valueCommand cmd v)), turn := k, schedule := [] } := by
  have hbranch : step s = .next { s with schedule := [(k, .forward cmd), (k, .answer), (k, .take)] } :=
    (step_at hs hu).trans (branchOk_of_ok hlast rfl)
  have hpresents : u.presents (.forward cmd) = some (valueCommand cmd v) := by simp [Codec.presents, hlast]
  exact reaches_succ hbranch (reaches_call
    (s := { s with schedule := [(k, .forward cmd), (k, .answer), (k, .take)] }) hu hr hq hp rfl hpresents)

/-- A pseudo-operation of one command. -/
theorem endsTaking_call {i : Instr} (hi : i.WellFormed) (hs : s.schedule = movesAt k (callMoves i)) :
    s.EndsTaking k u [responseOf i] := by
  have hcall := reaches_call hu hr hq hp hs (m := .offer (encode i)) rfl
  rw [← commandResponse_of_decode (decode_encode hi)]
  exact ⟨3, _, _, hcall, rfl, rfl, List.erase_sublist, fun j r hj => absurd hj (by simp)⟩

/-- A pseudo-operation of two commands: after an error the second one is left out, after a value it gets that value. -/
theorem endsTaking_chain {i : Instr} {second : Value → Instr} {cmd : Byte} (hi : i.WellFormed)
    (hfirst : (∃ e, e ≠ .ok ∧ responseOf i = raise e) ∨ ∃ v, responseOf i = okValue v)
    (hsecond : ∀ v, (second v).WellFormed ∧ encode (second v) = valueCommand cmd v)
    (hs : s.schedule = movesAt k (callMoves i ++ thenMoves cmd)) :
    s.EndsTaking k u (chainResponses (responseOf i) second) := by
  have hcall := reaches_call hu hr hq hp hs (m := .offer (encode i)) rfl
  have hu' : (s.codecs.set k (u.afterCall (encode i)))[k]? = some (u.afterCall (encode i)) :=
    (getElem?_set_codec hu).trans (if_pos rfl)
  have hlast := afterCall_lastTaken u (encode i)
  have hresponse := commandResponse_of_decode (decode_encode hi)
  rw [← hresponse] at hfirst ⊢
  rcases hfirst with ⟨e, he, herror⟩ | ⟨v, hvalue⟩
  · have hchain : chainResponses (commandResponse (encode i)) second = [commandResponse (encode i)] := by
      rw [herror]; cases e <;> rfl
    rw [hchain]
    exact ⟨4, _, _, reaches_add hcall (reaches_thenMoves_of_error hu' he (hlast.trans (congrArg some herror)) rfl),
      rfl, rfl, List.erase_sublist, fun j r hj => absurd hj (by simp)⟩
  · obtain ⟨hfits, hencode⟩ := hsecond v
    have hchain : chainResponses (commandResponse (encode i)) second =
        [commandResponse (encode i), commandResponse (valueCommand cmd v)] := by
      rw [hvalue, chainResponses_okValue, ← hencode, commandResponse_of_decode (decode_encode hfits)]
    have hnext := reaches_thenMoves_of_value (u := u.afterCall (encode i))
      (s := { codecs := s.codecs.set k (u.afterCall (encode i)), turn := k, schedule := movesAt k (thenMoves cmd) })
      hu' hr hq hp (hlast.trans (congrArg some hvalue)) rfl
    rw [hchain]
    refine ⟨7, _, (u.unaccepted.erase (encode i)).erase (valueCommand cmd v), reaches_add hcall hnext, rfl, ?_,
      List.erase_sublist.trans List.erase_sublist, fun j r hj hjr => ?_⟩
    · rw [List.set_set, Codec.afterCall, Codec.afterCall, List.append_assoc]; rfl
    · have hzero : j = 0 := by simpa using hj
      rw [hzero] at hjr
      rw [← Option.some.inj hjr, hvalue, okValue_status]

end

/-- Of the two decoders' responses an OK one carries a value, and any other is an error (30_encoding.md R64). -/
theorem dec32Response_error_or_value (s : List Byte) :
    (∃ e, e ≠ .ok ∧ dec32Response s = raise e) ∨ ∃ v, dec32Response s = okValue v := by
  rcases dec32Response_cases s with ⟨-, h⟩ | ⟨-, -, h⟩ | ⟨-, -, h⟩
  · exact .inl ⟨.invalidLength, nofun, h⟩
  · exact .inl ⟨.invalidTimestamp, nofun, h⟩
  · exact .inr ⟨_, h⟩

theorem unpack128Response_error_or_value (b : List Byte) :
    (∃ e, e ≠ .ok ∧ unpack128Response b = raise e) ∨ ∃ v, unpack128Response b = okValue v := by
  rcases unpack128Response_cases b with ⟨-, h⟩ | ⟨-, v, h⟩
  · exact .inl ⟨.invalidLength, nofun, h⟩
  · exact .inr ⟨v, h⟩

end Sys2Proof.Machine
end

section
/-! The obligations on runs of one codec's moves. -/

namespace Sys2Proof.Machine

/-- Settles O43: the waiting response, if there is one, is taken first, and then the queue is answered. -/
theorem outstandingCommandsAreAllAnswered : Obligations.OutstandingCommandsAreAllAnswered := by
  intro s k rest u hu hr hs
  cases hp : u.response with
  | none =>
    have hheld : u.occupancy = u.queue.length := by rw [occupancy_eq, hp]; rfl
    have hhistory : u.history = u.taken ++ u.queue.map commandResponse := by simp [Codec.history, hp]
    rw [hheld] at hs ⊢
    rw [hhistory, ← hp]
    exact reaches_empty_queue hu hr hp rfl hs
  | some r =>
    have hheld : u.occupancy = u.queue.length + 1 := by rw [occupancy_eq, hp]; rfl
    have hhistory : u.history = u.taken ++ [r] ++ u.queue.map commandResponse := by simp [Codec.history, hp]
    rw [hheld] at hs
    have hfirst := reaches_blocked_answer_take hs hu hr hp
    obtain ⟨t, ht, hsched, hcodecs⟩ := reaches_empty_queue
      (s := { s with codecs := s.codecs.set k { u with response := none, taken := u.taken ++ [r] }, schedule := _ })
      ((getElem?_set_codec hu).trans (if_pos rfl)) hr rfl rfl rfl
    refine ⟨t, ?_, hsched, ?_⟩
    · rw [hheld, Nat.mul_succ, Nat.add_comm]
      exact reaches_add hfirst ht
    · rw [hcodecs, List.set_set, hhistory]

/-- Settles O48: each expansion is a call, or a call and what follows it. -/
theorem pseudoOperationsExpandToTheirResponses : Obligations.PseudoOperationsExpandToTheirResponses := by
  intro s k u p hfits hu hr hq hp hs
  show s.EndsTaking k u p.responses
  cases p with
  | encodeCanonical v => exact endsTaking_call hu hr hq hp (i := .enc32 v) trivial hs
  | decodeCanonical b => exact endsTaking_call hu hr hq hp (i := .dec32 b) hfits hs
  | encodeBinary v => exact endsTaking_call hu hr hq hp (i := .pack128 v) trivial hs
  | decodeBinary b => exact endsTaking_call hu hr hq hp (i := .unpack128 b) hfits hs
  | timestampOfValue v => exact endsTaking_call hu hr hq hp (i := .tsx v) trivial hs
  | timestampOfString b =>
    exact endsTaking_chain hu hr hq hp (i := .dec32 b) hfits (dec32Response_error_or_value b)
      (fun _ => ⟨trivial, rfl⟩) hs
  | timestampOfBinary b =>
    exact endsTaking_chain hu hr hq hp (i := .unpack128 b) hfits (unpack128Response_error_or_value b)
      (fun _ => ⟨trivial, rfl⟩) hs
  | stringToBinary b =>
    exact endsTaking_chain hu hr hq hp (i := .dec32 b) hfits (dec32Response_error_or_value b)
      (fun _ => ⟨trivial, rfl⟩) hs
  | binaryToString b =>
    exact endsTaking_chain hu hr hq hp (i := .unpack128 b) hfits (unpack128Response_error_or_value b)
      (fun _ => ⟨trivial, rfl⟩) hs

end Sys2Proof.Machine
end
